-- ==== Sys2Proof/Word.lean ====
section
/-! DEFINITION. The widths the core works with: bytes, 7-bit segment codes, 4-bit glyph codes, and the sequences made
of them (R11, R12). Frames and strings are plain lists, so that they can be compared and written out. -/

namespace Sys2Proof

/-- A byte, `0x00` .. `0xFF`, bit 0 the least significant (R11). -/
abbrev Byte := BitVec 8

/-- A 7-bit segment code, the index of `ROM_DIG` (R25, R53). -/
abbrev Code7 := BitVec 7

/-- A 4-bit glyph code, the element of `ROM_DIG` (R25, R55). -/
abbrev GlyphCode := BitVec 4

/-- A frame: its bytes in arrival order, index 0 the earliest (R37, R51). -/
abbrev Frame := List Byte

/-- A finite string (R12). -/
abbrev Text := List Char

end Sys2Proof
end

