-- ==== Sys2Proof/Config.lean ====
section
/-! DEFINITION. The configuration record of R7, the six named checks of R9, and this hardware's configuration: the
values the source states, and free values for the four parameters that are OPEN. -/

namespace Sys2Proof

/-- The 12 glyphs of R10: the ten digits, `L` and the blank. -/
inductive Glyph where
  | d0 | d1 | d2 | d3 | d4 | d5 | d6 | d7 | d8 | d9
  | letterL
  | blank
deriving DecidableEq, Repr

/-- All glyphs, in the order of their glyph codes (R55). -/
def Glyph.all : List Glyph := [.d0, .d1, .d2, .d3, .d4, .d5, .d6, .d7, .d8, .d9, .letterL, .blank]

/-- The place of a glyph in `DIGIT_ROM`: the glyphs in the order of their glyph codes (R55). -/
def Glyph.index : Glyph → Fin 12
  | .d0 => 0 | .d1 => 1 | .d2 => 2 | .d3 => 3 | .d4 => 4 | .d5 => 5
  | .d6 => 6 | .d7 => 7 | .d8 => 8 | .d9 => 9 | .letterL => 10 | .blank => 11

/-- `UNKNOWN_DIGIT_POLICY`: what a 7-bit code outside `DIGIT_ROM` decodes to (R7, D6). -/
inductive UnknownDigitPolicy where
  | noMatch
  | blank
deriving DecidableEq, Repr

/-- The parameters the source leaves OPEN (R7). -/
structure OpenParams where
  /-- `DIGIT_ROM`: the segment code of each glyph, in glyph code order; bytes, so that `wf_rom` has something to check. -/
  digitRom : Vector Byte 12
  /-- `LABEL_OFF[0..4]`. -/
  labelOff : Vector Nat 5
  /-- `VOCAB[g][k]`: the fragment of label group `g`, bit `k`, or none. -/
  vocab : List (List (Option Text))
  /-- `TS_W`, the width of the timestamp input. -/
  tsW : Nat
deriving DecidableEq, Repr, Inhabited

/-- The configuration parameters of R7, before any check. Named fields, never inlined literals (R8). -/
structure ConfigData extends OpenParams where
  /-- `HDR1`, the magic restart byte. -/
  hdr1 : Byte
  /-- `HDR2`. -/
  hdr2 : Byte
  /-- `FRAME_LEN`. -/
  frameLen : Nat
  /-- `MAX_BUF`. -/
  maxBuf : Nat
  /-- `DIGIT_OFF[0..3]`, digit 0 the most significant. -/
  digitOff : Vector Nat 4
  /-- `DP_BIT`, the bit of a digit byte that holds the decimal point. -/
  dpBit : Fin 8
  /-- `UNKNOWN_DIGIT_POLICY`. -/
  unknownDigit : UnknownDigitPolicy
deriving DecidableEq, Repr

/-- The named checks of R9. -/
inductive ConfigCheck where
  | wfFrameLen
  | wfMaxBuf
  | wfDigitOff
  | wfLabelOff
  | wfRom
  | wfVocab
deriving DecidableEq, Repr

/-- The checks in the order R9 lists them. -/
def ConfigCheck.all : List ConfigCheck := [.wfFrameLen, .wfMaxBuf, .wfDigitOff, .wfLabelOff, .wfRom, .wfVocab]

/-- What each named check asks (R9). -/
def ConfigCheck.passes (d : ConfigData) : ConfigCheck → Bool
  | .wfFrameLen => decide (10 ≤ d.frameLen)
  | .wfMaxBuf => decide (d.frameLen + 1 ≤ d.maxBuf)
  | .wfDigitOff => d.digitOff.toList.all (fun o => decide (o < d.frameLen))
  | .wfLabelOff => d.labelOff.toList.all (fun o => decide (o < d.frameLen))
  | .wfRom => decide d.digitRom.toList.Nodup && d.digitRom.toList.all (fun c => decide (c.toNat < 0x80))
  | .wfVocab => decide (d.vocab.length = 5) && d.vocab.all (fun row => decide (row.length = 8))

/-- A configuration is well formed when every check of R9 passes. -/
def ConfigData.wf (d : ConfigData) : Bool := ConfigCheck.all.all (ConfigCheck.passes d)

/-- A configuration the core can be built with: one that passes R9. An ill-formed one cannot be written, so no state
holds it and no step runs under it (R150: the refusal of such a configuration is the only refusal). -/
structure Config extends ConfigData where
  ok : toConfigData.wf = true
deriving DecidableEq, Repr

/-- Builds a configuration, refusing an ill-formed one by the name of the first check it fails (R9). -/
def Config.ofData (d : ConfigData) : Except ConfigCheck Config :=
  if h : d.wf = true then .ok ⟨d, h⟩
  else .error ((ConfigCheck.all.find? (fun c => !c.passes d)).getD .wfFrameLen)

/-- The values the source states for this hardware (R7), around any OPEN parameters. -/
def ConfigData.stated (o : OpenParams) : ConfigData :=
  { o with
    hdr1 := 0xAA
    hdr2 := 0x55
    frameLen := 22
    maxBuf := 80
    digitOff := #v[9, 8, 7, 6]
    dpBit := 7
    unknownDigit := .noMatch }

/-- The configuration holds the source's values in every parameter the source states (R7). -/
def ConfigData.IsStated (d : ConfigData) : Prop := d = ConfigData.stated d.toOpenParams

/-- R123's two constraints on the vocabulary: `"V "` at some bit of group 1, `"DC "` at some bit of group 2. -/
def OpenParams.meetsScenarioA (o : OpenParams) : Bool :=
  (o.vocab.getD 1 []).contains (some ['V', ' ']) && (o.vocab.getD 2 []).contains (some ['D', 'C', ' '])

/-- The OPEN parameters the spec admits for this hardware: R9 around the stated values, and R123. -/
def OpenParams.admissible (o : OpenParams) : Bool := (ConfigData.stated o).wf && o.meetsScenarioA

/-- The test instance of D18 (`TEST_ROM`, `TEST_LABEL_OFF`, `TEST_VOCAB`, `TS_W = 32`). It is NOT this hardware's. -/
def OpenParams.test : OpenParams where
  digitRom := #v[0x3F, 0x06, 0x5B, 0x4F, 0x66, 0x6D, 0x7D, 0x07, 0x7F, 0x6F, 0x38, 0x00]
  labelOff := #v[10, 11, 12, 13, 14]
  vocab :=
    [ [some ['d', 'e', 'g', 'C', ' '], some ['d', 'e', 'g', 'F', ' '], some ['B', 'e', 'e', 'p', ' '],
        none, none, none, none, none],
      [some ['V', ' '], some ['A', ' '], some ['O', 'h', 'm', ' '], some ['H', 'z', ' '], none, none, none, none],
      [some ['D', 'i', 'o', 'd', 'e', ' '], some ['A', 'C', ' '], some ['D', 'C', ' '], some ['C', 'o', 'n', 't', ' '],
        some ['L', 'o', 'w', 'B', 'a', 't', ' '], none, none, none],
      [some ['W', 'a', 'i', 't', ' '], some ['A', 'u', 't', 'o', ' '], some ['H', 'o', 'l', 'd', ' '],
        some ['R', 'e', 'l', ' '], none, none, none, none],
      [some ['M', 'a', 'x', ' '], some ['M', 'i', 'n', ' '], some ['h', 'F', 'E', ' '], none, none, none, none, none] ]
  tsW := 32

/-- The OPEN parameters as they come: a free value, which nothing can evaluate (log entry 3). -/
opaque Config.freeParams : OpenParams

/-- This hardware's OPEN parameters: the free value where the spec admits it. The other branch only makes the choice
total: it leaves an admissible value about which nothing more can be proved (log entry 3). -/
def Config.openParams : OpenParams := if Config.freeParams.admissible then Config.freeParams else OpenParams.test

theorem OpenParams.test_admissible : OpenParams.test.admissible = true := by decide

theorem Config.openParams_admissible : Config.openParams.admissible = true := by
  unfold Config.openParams
  split
  · assumption
  · exact OpenParams.test_admissible

theorem Config.stated_openParams_wf : (ConfigData.stated Config.openParams).wf = true := by
  have h := Config.openParams_admissible
  simp only [OpenParams.admissible, Bool.and_eq_true] at h
  exact h.1

/-- This hardware's configuration: the stated values, and the OPEN parameters left free (R7, D10 to D13). -/
def Config.hw : Config := ⟨ConfigData.stated Config.openParams, Config.stated_openParams_wf⟩

theorem ConfigData.test_wf : (ConfigData.stated OpenParams.test).wf = true := by decide

/-- The configuration of spec/95_test_vectors.md: the stated values around the test instance of D18. -/
def Config.test : Config := ⟨ConfigData.stated OpenParams.test, ConfigData.test_wf⟩

end Sys2Proof
end

