-- ==== Sys2Proof/Machine/Tables.lean ====
section
/-! DEFINITION. The two read-only tables: the digit ROM `ROM_DIG` (R25) and the label vocabulary `VOC` with its presence
masks `VMASK` (R26). Nothing writes them (R27). -/

namespace Sys2Proof.Machine

/-- The glyph code `G(c)` of a glyph (R25, R55). -/
def glyphCode : Glyph → GlyphCode
  | .d0 => 0x0
  | .d1 => 0x1
  | .d2 => 0x2
  | .d3 => 0x3
  | .d4 => 0x4
  | .d5 => 0x5
  | .d6 => 0x6
  | .d7 => 0x7
  | .d8 => 0x8
  | .d9 => 0x9
  | .letterL => 0xA
  | .blank => 0xB

/-- The glyph code of a code outside `DIGIT_ROM`: `NOMATCH` (0xF) or, by policy, that of BLANK (R25, R103, D6). -/
def unknownCode (cfg : Config) : GlyphCode :=
  match cfg.unknownDigit with
  | .noMatch => 0xF
  | .blank => 0xB

/-- `DIGIT_ROM(c)`: the segment code of a glyph (R7, R10). -/
def romCode (cfg : Config) (g : Glyph) : Byte := cfg.digitRom.get g.index

/-- The glyph whose code is `x`, if there is one; `wf_rom` makes it unique (R9, R25). -/
def romFind (cfg : Config) (x : Code7) : Option Glyph := Glyph.all.find? (fun g => romCode cfg g == x.setWidth 8)

/-- `ROM_DIG[x]` (R25). -/
def romDig (cfg : Config) (x : Code7) : GlyphCode :=
  match romFind cfg x with
  | some g => glyphCode g
  | none => unknownCode cfg

/-- `VOC[g][k]`, that is `VOCAB[g][k]` (R26). -/
def fragment (cfg : Config) (g : Fin 5) (k : Fin 8) : Option Text := (cfg.vocab.getD g.val []).getD k.val none

/-- A byte from its eight bits, bit 0 first. -/
def byteOfBits (f : Fin 8 → Bool) : Byte :=
  BitVec.ofBool (f 7) ++ BitVec.ofBool (f 6) ++ BitVec.ofBool (f 5) ++ BitVec.ofBool (f 4) ++
    BitVec.ofBool (f 3) ++ BitVec.ofBool (f 2) ++ BitVec.ofBool (f 1) ++ BitVec.ofBool (f 0)

/-- `VMASK[g]`: bit `k` is 1 iff `VOCAB[g][k]` is not none (R26). -/
def vmask (cfg : Config) (g : Fin 5) : Byte := byteOfBits (fun k => (fragment cfg g k).isSome)

end Sys2Proof.Machine
end

