-- ==== Sys2Proof/Machine/Operands.lean ====
section
/-! DEFINITION. How operands are read: the two fields of a digit byte (R53, R54), the digit and label bytes of a frame
(R54, R56), and the 16-bit header view (R52). Every frame read falls inside the frame when the frame has `FRAME_LEN`
bytes, since the configuration is well formed; on a shorter list a read gives 0x00 (log entry 9). -/

namespace Sys2Proof.Machine

/-- The bits below bit `p`, as a mask. -/
def lowMask (p : Fin 8) : Byte := (1#8 <<< p.val) - 1#8

/-- The seven bits of a byte that are not bit `p`, in their order. With `DP_BIT = 7` this is `b[6:0]` (R54). -/
def removeBit (p : Fin 8) (b : Byte) : Code7 := ((b &&& lowMask p) ||| ((b >>> (p.val + 1)) <<< p.val)).setWidth 7

/-- The byte with `dp` at bit `p` and the code's bits, in order, at the seven others. -/
def insertBit (p : Fin 8) (dp : Bool) (c : Code7) : Byte :=
  (c.setWidth 8 &&& lowMask p) ||| ((BitVec.ofBool dp).setWidth 8 <<< p.val) |||
    ((c.setWidth 8 >>> p.val) <<< (p.val + 1))

/-- `dp_i`: the decimal-point flag of a digit byte (R53, R54). -/
def dpOf (cfg : Config) (b : Byte) : Bool := b.getLsbD cfg.dpBit.val

/-- `code_i`: "the remaining 7 bits" of a digit byte (R53, R54; another `DP_BIT` than 7: log entry 5). -/
def codeOf (cfg : Config) (b : Byte) : Code7 := removeBit cfg.dpBit b

/-- The digit byte with decimal point `dp` and segment code `c` (R53, R62). -/
def digitByteOf (cfg : Config) (dp : Bool) (c : Code7) : Byte := insertBit cfg.dpBit dp c

/-- `F[j]` (R12, R37). -/
def byteAt (F : Frame) (j : Nat) : Byte := F.getD j 0

/-- `db_i = F[DIGIT_OFF[i]]` (R38, R54). -/
def digitByte (cfg : Config) (F : Frame) (i : Fin 4) : Byte := byteAt F (cfg.digitOff.get i)

/-- `lb_g = F[LABEL_OFF[g]]` (R56). -/
def labelByte (cfg : Config) (F : Frame) (g : Fin 5) : Byte := byteAt F (cfg.labelOff.get g)

/-- The 16-bit view `H` of a frame: `F[0]` in bits 15:8, `F[1]` in bits 7:0 (R52). -/
def headerOf (F : Frame) : BitVec 16 := byteAt F 0 ++ byteAt F 1

/-- The header signature `HDR1 * 256 + HDR2` (R52). -/
def headerSignature (cfg : Config) : BitVec 16 := cfg.hdr1 ++ cfg.hdr2

end Sys2Proof.Machine
end

