-- ==== Sys2Proof/Syntax.lean ====
section
/-! DEFINITION. The operations: one constructor for each row of spec/opcode_table.json (R58), and the four formats as
the places where a bit pattern can stand. -/

namespace Sys2Proof

/-- The 22 operations selected by a bit pattern (R58). -/
inductive Instr where
  /-- `SYNC.HDR` (R71): the input byte is `HDR1`. -/
  | syncHdr
  /-- `SYNC.DATA` (R72): the input byte `b` is not `HDR1`. -/
  | syncData (b : Byte)
  /-- `VAL.ACCEPT` (R86): the emitted frame `F` carries the header signature. -/
  | valAccept (F : Frame)
  /-- `VAL.REJECT` (R87): the emitted frame `F` does not. -/
  | valReject (F : Frame)
  /-- `DIG.0` (R91): digit position `i` (0 the most significant), decimal point `dp`. The nine after it are alike. -/
  | dig0 (i : Fin 4) (dp : Bool)
  | dig1 (i : Fin 4) (dp : Bool)
  | dig2 (i : Fin 4) (dp : Bool)
  | dig3 (i : Fin 4) (dp : Bool)
  | dig4 (i : Fin 4) (dp : Bool)
  | dig5 (i : Fin 4) (dp : Bool)
  | dig6 (i : Fin 4) (dp : Bool)
  | dig7 (i : Fin 4) (dp : Bool)
  | dig8 (i : Fin 4) (dp : Bool)
  | dig9 (i : Fin 4) (dp : Bool)
  /-- `DIG.L` (R101). -/
  | digL (i : Fin 4) (dp : Bool)
  /-- `DIG.BLANK` (R102). -/
  | digBlank (i : Fin 4) (dp : Bool)
  /-- `DIG.NOMATCH` (R103): the 7-bit code `code` is not in `DIGIT_ROM`. -/
  | digNomatch (i : Fin 4) (dp : Bool) (code : Code7)
  /-- `LBL.G0` (R116): the label byte of group 0. The four after it are alike. -/
  | lblG0 (lb : Byte)
  | lblG1 (lb : Byte)
  | lblG2 (lb : Byte)
  | lblG3 (lb : Byte)
  | lblG4 (lb : Byte)
deriving DecidableEq, Repr

/-- Where a bit pattern stands. The byte formats share their 256 patterns, and the place alone tells them apart: the
input byte (`IN_BYTE`, R50), an emitted frame (`FRAME_HEADER`, R52), the byte at `DIGIT_OFF[i]` (`DIGIT_BYTE`, R53), the
byte at `LABEL_OFF[g]` (`LABEL_BYTE`, R56). -/
inductive Slot where
  | inByte
  | frame
  | digit (i : Fin 4)
  | label (g : Fin 5)
deriving DecidableEq, Repr

/-- The place at which an operation's pattern stands. -/
def Instr.slot : Instr → Slot
  | .syncHdr => .inByte
  | .syncData _ => .inByte
  | .valAccept _ => .frame
  | .valReject _ => .frame
  | .dig0 i _ => .digit i
  | .dig1 i _ => .digit i
  | .dig2 i _ => .digit i
  | .dig3 i _ => .digit i
  | .dig4 i _ => .digit i
  | .dig5 i _ => .digit i
  | .dig6 i _ => .digit i
  | .dig7 i _ => .digit i
  | .dig8 i _ => .digit i
  | .dig9 i _ => .digit i
  | .digL i _ => .digit i
  | .digBlank i _ => .digit i
  | .digNomatch i _ _ => .digit i
  | .lblG0 _ => .label 0
  | .lblG1 _ => .label 1
  | .lblG2 _ => .label 2
  | .lblG3 _ => .label 3
  | .lblG4 _ => .label 4

end Sys2Proof
end

