-- ==== Sys2Proof/WellFormed.lean ====
section
/-! DEFINITION. Which operations an encoding can select under a configuration. (The well-formedness of the configuration
itself, R9, is in Config.lean.) -/

namespace Sys2Proof

open Sys2Proof.Machine

/-- An operation is well formed when some bit pattern selects it: `SYNC.DATA` is for every byte but `HDR1` (R50), a
frame has `FRAME_LEN` bytes (R51) and its header decides between accept and reject (R52), and `DIG.NOMATCH` is for the
codes outside `DIGIT_ROM` (R103). -/
def Instr.wf (cfg : Config) : Instr → Bool
  | .syncHdr => true
  | .syncData b => b != cfg.hdr1
  | .valAccept F => decide (F.length = cfg.frameLen) && headerOf F == headerSignature cfg
  | .valReject F => decide (F.length = cfg.frameLen) && headerOf F != headerSignature cfg
  | .dig0 _ _ => true
  | .dig1 _ _ => true
  | .dig2 _ _ => true
  | .dig3 _ _ => true
  | .dig4 _ _ => true
  | .dig5 _ _ => true
  | .dig6 _ _ => true
  | .dig7 _ _ => true
  | .dig8 _ _ => true
  | .dig9 _ _ => true
  | .digL _ _ => true
  | .digBlank _ _ => true
  | .digNomatch _ _ code => (romFind cfg code).isNone
  | .lblG0 _ => true
  | .lblG1 _ => true
  | .lblG2 _ => true
  | .lblG3 _ => true
  | .lblG4 _ => true

end Sys2Proof
end

