-- ==== Sys2Proof/Decode.lean ====
section
/-! DEFINITION. From bit patterns to operations (R50, R52, R53, R56, with the priorities the rules give), total on any
bytes, and back. -/

namespace Sys2Proof

open Sys2Proof.Machine

/-- Why a list of bytes is no pattern of its slot. -/
inductive DecodeReject where
  /-- A byte format takes exactly one byte. -/
  | notOneByte
  /-- A frame has exactly `FRAME_LEN` bytes (R51). -/
  | notAFrame
deriving DecidableEq, Repr

/-- `IN_BYTE`: `SYNC.HDR` is tried first, `SYNC.DATA` covers the other 255 values (R50). -/
def decodeByte (cfg : Config) (b : Byte) : Instr := if b = cfg.hdr1 then .syncHdr else .syncData b

/-- `FRAME_HEADER`: `VAL.ACCEPT` is tried first, `VAL.REJECT` covers every other header (R52). -/
def decodeFrame (cfg : Config) (F : Frame) : Instr :=
  if headerOf F = headerSignature cfg then .valAccept F else .valReject F

/-- The digit operation of a glyph (R91 to R102). -/
def digitInstr (i : Fin 4) (dp : Bool) : Glyph → Instr
  | .d0 => .dig0 i dp
  | .d1 => .dig1 i dp
  | .d2 => .dig2 i dp
  | .d3 => .dig3 i dp
  | .d4 => .dig4 i dp
  | .d5 => .dig5 i dp
  | .d6 => .dig6 i dp
  | .d7 => .dig7 i dp
  | .d8 => .dig8 i dp
  | .d9 => .dig9 i dp
  | .letterL => .digL i dp
  | .blank => .digBlank i dp

/-- `DIGIT_BYTE`: the row whose `DIGIT_ROM` code the byte carries, or `DIG.NOMATCH` (R53, R91 to R103). -/
def decodeDigit (cfg : Config) (i : Fin 4) (b : Byte) : Instr :=
  match romFind cfg (codeOf cfg b) with
  | some g => digitInstr i (dpOf cfg b) g
  | none => .digNomatch i (dpOf cfg b) (codeOf cfg b)

/-- `LABEL_BYTE`: the group alone selects the row, for all 256 values (R56, R116 to R120). -/
def decodeLabel (g : Fin 5) (b : Byte) : Instr :=
  match g with
  | 0 => .lblG0 b
  | 1 => .lblG1 b
  | 2 => .lblG2 b
  | 3 => .lblG3 b
  | 4 => .lblG4 b

/-- The decoder: what the bytes at a slot select, or why they are no pattern of that slot. -/
def decode (cfg : Config) (slot : Slot) (bytes : List Byte) : Except DecodeReject Instr :=
  match slot, bytes with
  | .inByte, [b] => .ok (decodeByte cfg b)
  | .frame, F => if F.length = cfg.frameLen then .ok (decodeFrame cfg F) else .error .notAFrame
  | .digit i, [b] => .ok (decodeDigit cfg i b)
  | .label g, [b] => .ok (decodeLabel g b)
  | _, _ => .error .notOneByte

/-- The digit byte of a glyph (R53, R62). -/
def glyphByte (cfg : Config) (dp : Bool) (g : Glyph) : Byte := digitByteOf cfg dp ((romCode cfg g).setWidth 7)

/-- The bytes of an operation, written from the encodings of the rules. -/
def encode (cfg : Config) : Instr → List Byte
  | .syncHdr => [cfg.hdr1]
  | .syncData b => [b]
  | .valAccept F => F
  | .valReject F => F
  | .dig0 _ dp => [glyphByte cfg dp .d0]
  | .dig1 _ dp => [glyphByte cfg dp .d1]
  | .dig2 _ dp => [glyphByte cfg dp .d2]
  | .dig3 _ dp => [glyphByte cfg dp .d3]
  | .dig4 _ dp => [glyphByte cfg dp .d4]
  | .dig5 _ dp => [glyphByte cfg dp .d5]
  | .dig6 _ dp => [glyphByte cfg dp .d6]
  | .dig7 _ dp => [glyphByte cfg dp .d7]
  | .dig8 _ dp => [glyphByte cfg dp .d8]
  | .dig9 _ dp => [glyphByte cfg dp .d9]
  | .digL _ dp => [glyphByte cfg dp .letterL]
  | .digBlank _ dp => [glyphByte cfg dp .blank]
  | .digNomatch _ dp code => [digitByteOf cfg dp code]
  | .lblG0 lb => [lb]
  | .lblG1 lb => [lb]
  | .lblG2 lb => [lb]
  | .lblG3 lb => [lb]
  | .lblG4 lb => [lb]

/-- The frame whose header view is the 16-bit word `w` and whose other bytes are 0x00 (R52: `F[0]` is bits 15:8). -/
def frameOfHeader (cfg : Config) (w : Nat) : Frame :=
  BitVec.ofNat 8 (w / 256) :: BitVec.ofNat 8 w :: List.replicate (cfg.frameLen - 2) 0

/-- The decoder on a word numbered as the opcode table numbers it. An 8-bit word is an input byte (`IN_BYTE`); a 16-bit
word is the header view of a frame (`FRAME_HEADER`). The 8-bit patterns of `DIGIT_BYTE` and `LABEL_BYTE` are the same
256 words: only their place in a frame tells them apart (log entry 8). -/
def decodeTableWord (nbits w : Nat) : Option Instr :=
  if nbits ≤ 8 then (decode Config.hw .inByte [BitVec.ofNat 8 w]).toOption
  else if nbits ≤ 16 then (decode Config.hw .frame (frameOfHeader Config.hw w)).toOption
  else none

end Sys2Proof
end

