-- ==== Sys2Proof/Machine/Flags.lean ====
section
/-! DEFINITION. The flag-like bits of a reading and its value, computed from the four glyph codes and the four
decimal-point bits: the numeric condition (R105), mantissa and scale (R106). None persists between readings (R29). -/

namespace Sys2Proof.Machine

/-- The glyph code is that of a digit, `0x0` .. `0x9` (R55). -/
def isDigitCode (gc : GlyphCode) : Bool := decide (gc.toNat ≤ 9)

/-- How many decimal points are set. -/
def dpCount (dp : Vector Bool 4) : Nat := dp.toList.count true

/-- The numeric condition: no `L` and no NOMATCH, at most one decimal point, at least one digit (R105). -/
def numericOf (gc : Vector GlyphCode 4) (dp : Vector Bool 4) : Bool :=
  gc.toList.all (fun c => c != 0xA && c != 0xF) && decide (dpCount dp ≤ 1) && gc.toList.any isDigitCode

/-- The decimal number the digit glyphs spell, most significant first: `M` of R106. -/
def mantissaOf (gc : Vector GlyphCode 4) : Nat :=
  gc.toList.foldl (fun m c => if isDigitCode c then 10 * m + c.toNat else m) 0

/-- The digits from the decimal point on: `K` of R106. The point at digit `p` stands before digit `p`'s own glyph. -/
def scaleOf (gc : Vector GlyphCode 4) (dp : Vector Bool 4) : Nat :=
  if dpCount dp = 0 then 0 else (gc.toList.drop (dp.toList.idxOf true)).countP isDigitCode

end Sys2Proof.Machine
end

