-- ==== Sys2Proof/Machine/State.lean ====
section
/-! DEFINITION. What the machine holds: the candidate buffer (R20), the output registers (R28), the configuration with
its read-only tables (R7, R25, R26), and the values the environment will drive on the input ports (R129). -/

namespace Sys2Proof.Machine

/-- The reading record: the output registers of R28 but for `out_valid` (R57: kept as a record, no packed word). -/
structure Reading where
  /-- `out_dig_code[0..3]`, digit 0 the most significant. -/
  digCode : Vector GlyphCode 4
  /-- `out_dig_dp[0..3]`. -/
  digDp : Vector Bool 4
  /-- `out_numeric`. -/
  numeric : Bool
  /-- `out_mant`. -/
  mant : BitVec 14
  /-- `out_scale`. -/
  scale : BitVec 3
  /-- `out_lbl[0..4]`. -/
  lbl : Vector Byte 5
  /-- `out_ts`, below `2^TS_W` (log entry 6). -/
  ts : Nat
deriving DecidableEq, Repr

/-- The reset values of the output registers (R33). -/
def Reading.zero : Reading where
  digCode := #v[0, 0, 0, 0]
  digDp := #v[false, false, false, false]
  numeric := false
  mant := 0
  scale := 0
  lbl := #v[0, 0, 0, 0, 0]
  ts := 0

/-- What stands on the input ports at one rising edge of `clk` (R129). -/
structure PortIn where
  /-- `rst`, synchronous, active high. -/
  rst : Bool
  /-- `in_valid`: a byte is offered. -/
  inValid : Bool
  /-- `in_data`: the byte offered. -/
  inData : Byte
  /-- `now`: the timestamp offered, any value (R127). -/
  now : Nat
deriving DecidableEq, Repr

/-- The ports at an edge at which nothing is offered. -/
def PortIn.quiet : PortIn where
  rst := false
  inValid := false
  inData := 0
  now := 0

/-- The state. No field is a trap, mode, counter or address: the spec gives the core none (R22, R30, R140 to R149). -/
structure State where
  /-- The configuration, with `ROM_DIG` and `VOC` in it. Nothing writes it (R27, R30; log entry 2). -/
  cfg : Config
  /-- `cand`, the candidate buffer, oldest byte first (R20). -/
  cand : List Byte
  /-- `out_valid` (R28). -/
  outValid : Bool
  /-- The other output registers (R28). -/
  out : Reading
  /-- The port values of the coming edges, next edge first; after the last one the ports stay quiet (log entry 1). -/
  inputs : List PortIn
deriving DecidableEq, Repr

/-- No operation of the core faults: "The core raises no exception, fault or trap" (R140, R150). -/
inductive Fault
deriving DecidableEq, Repr

/-- Why a step could be refused. -/
inductive Refusal where
  /-- Raised only by an arm of `exec` whose operation has no meaning yet; safe. No arm raises it now. -/
  | notModelled (mnemonic : String)
deriving DecidableEq, Repr

/-- The outcome of an operation or a step. -/
abbrev Outcome := Host.Outcome State Fault Refusal

/-- The state after reset under a configuration (R33, R160, R161), with the given port values to come. -/
def State.resetWith (cfg : Config) (inputs : List PortIn) : State where
  cfg := cfg
  cand := []
  outValid := false
  out := Reading.zero
  inputs := inputs

/-- This hardware right after reset, with nothing offered yet. -/
def State.reset : State := State.resetWith Config.hw []

end Sys2Proof.Machine
end

