-- ==== Sys2Proof/Machine/Ops.lean ====
section
/-! DEFINITION. The named operations over the state. Buffer operations (R13, R70, R73, R74), register writes (R90, R121,
R106, R125), and what happens at an edge around an operation (R130, R131, R160). The core takes no exception and returns
from none (R140, R145, R146), so there is no such operation here. -/

namespace Sys2Proof.Machine

/-! ### The candidate buffer -/

/-- Sub-operation 1, restart: `cand <- []` (R70, R71). -/
def restart (s : State) : State := { s with cand := [] }

/-- Sub-operation 2, append: `cand <- cand ++ [b]` (R70, R72). -/
def append (b : Byte) (s : State) : State := { s with cand := s.cand ++ [b] }

/-- Sub-operation 3, `OVF`: a buffer of `MAX_BUF` bytes or more loses the byte just appended (R73). -/
def overflow (s : State) : State :=
  if s.cfg.maxBuf ≤ s.cand.length then { s with cand := s.cand.dropLast } else s

/-- Sub-operation 4, `EMIT`: a buffer of exactly `FRAME_LEN` bytes is handed over as a frame and cleared (R74). The
frame is a copy (R36). -/
def emit (s : State) : State × Option Frame :=
  if s.cand.length = s.cfg.frameLen then ({ s with cand := [] }, some s.cand) else (s, none)

/-! ### The output registers -/

/-- `out_dig_code[i] <- gc ; out_dig_dp[i] <- dp` (R90). -/
def putDigit (i : Fin 4) (gc : GlyphCode) (dp : Bool) (s : State) : State :=
  { s with out := { s.out with digCode := s.out.digCode.set i.val gc, digDp := s.out.digDp.set i.val dp } }

/-- `out_lbl[g] <- lb AND VMASK[g]` (R121). -/
def putLabel (g : Fin 5) (lb : Byte) (s : State) : State :=
  { s with out := { s.out with lbl := s.out.lbl.set g.val (lb &&& vmask s.cfg g) } }

/-- `out_numeric`, `out_mant` and `out_scale` from the digit registers: the last two are 0 when not numeric (R105, R106). -/
def classify (s : State) : State :=
  let n := numericOf s.out.digCode s.out.digDp
  { s with out := { s.out with
      numeric := n
      mant := if n then BitVec.ofNat 14 (mantissaOf s.out.digCode) else 0
      scale := if n then BitVec.ofNat 3 (scaleOf s.out.digCode s.out.digDp) else 0 } }

/-! ### The ports and the edge -/

/-- What the core does at an edge: reset wins over an offered byte; without either the edge is idle (R130, R144). -/
inductive Edge where
  | reset
  | idle
  | byte (b : Byte) (now : Nat)
deriving DecidableEq, Repr

/-- What the port values make of an edge (R130, R144, R160). -/
def edgeOf (p : PortIn) : Edge :=
  if p.rst then .reset else if p.inValid then .byte p.inData p.now else .idle

/-- The values on the input ports at the coming edge. -/
def port (s : State) : PortIn := s.inputs.headD PortIn.quiet

/-- A value on `now` as the `TS_W` wires carry it (R127, R129; log entry 6). -/
def sampleNow (cfg : Config) (now : Nat) : Nat := now % 2 ^ cfg.tsW

/-- `out(R)`: `R.ts = now`, and the reading is presented in the cycle after this edge (R125, R127, R131). -/
def present (s : State) : State :=
  { s with outValid := true, out := { s.out with ts := sampleNow s.cfg (port s).now } }

/-- At every edge `out_valid` falls unless the step outputs a reading; the fields keep their values (R131). -/
def beginEdge (s : State) : State := { s with outValid := false }

/-- A reset edge: `cand`, `out_valid` and every `out_*` field take their reset values (R160); the tables stay (R27). -/
def resetEdge (s : State) : State := { s with cand := [], outValid := false, out := Reading.zero }

/-- The edge is over: the environment drives its next values. -/
def advance (s : State) : State := { s with inputs := s.inputs.tail }

/-- Does something to the next state of an outcome; a stop stays as it is. -/
def mapNext (f : State → State) : Outcome → Outcome
  | .next s => .next (f s)
  | .fault r => .fault r
  | .refused r => .refused r

/-! ### The sequencing view -/

/-- The buffer as the source's "small explicit state value" (R21, R80). -/
inductive Phase where
  | empty
  | filling (n : Nat)
deriving DecidableEq, Repr

/-- `Empty` for no byte, `Filling(n)` for n bytes (R21). -/
def phaseOf (cand : List Byte) : Phase :=
  match cand with
  | [] => .empty
  | _ :: rest => .filling (rest.length + 1)

end Sys2Proof.Machine
end

