-- ==== Sys2Proof/Machine/Digit.lean ====
section
/-! DEFINITION. The digit operations DIG.0 .. DIG.9, DIG.L, DIG.BLANK and DIG.NOMATCH (R91 to R103): what each writes,
its meaning for `exec`, and the lookup that selects among them in a frame (R90). -/

namespace Sys2Proof.Machine

/-- `DIG.0`: `gc_i <- 0x0` (R91). -/
def doDig0 (i : Fin 4) (dp : Bool) (s : State) : State := putDigit i 0x0 dp s

/-- `DIG.1`: `gc_i <- 0x1` (R92). -/
def doDig1 (i : Fin 4) (dp : Bool) (s : State) : State := putDigit i 0x1 dp s

/-- `DIG.2`: `gc_i <- 0x2` (R93). -/
def doDig2 (i : Fin 4) (dp : Bool) (s : State) : State := putDigit i 0x2 dp s

/-- `DIG.3`: `gc_i <- 0x3` (R94). -/
def doDig3 (i : Fin 4) (dp : Bool) (s : State) : State := putDigit i 0x3 dp s

/-- `DIG.4`: `gc_i <- 0x4` (R95). -/
def doDig4 (i : Fin 4) (dp : Bool) (s : State) : State := putDigit i 0x4 dp s

/-- `DIG.5`: `gc_i <- 0x5` (R96). -/
def doDig5 (i : Fin 4) (dp : Bool) (s : State) : State := putDigit i 0x5 dp s

/-- `DIG.6`: `gc_i <- 0x6` (R97). -/
def doDig6 (i : Fin 4) (dp : Bool) (s : State) : State := putDigit i 0x6 dp s

/-- `DIG.7`: `gc_i <- 0x7` (R98). -/
def doDig7 (i : Fin 4) (dp : Bool) (s : State) : State := putDigit i 0x7 dp s

/-- `DIG.8`: `gc_i <- 0x8` (R99). -/
def doDig8 (i : Fin 4) (dp : Bool) (s : State) : State := putDigit i 0x8 dp s

/-- `DIG.9`: `gc_i <- 0x9` (R100). -/
def doDig9 (i : Fin 4) (dp : Bool) (s : State) : State := putDigit i 0x9 dp s

/-- `DIG.L`: `gc_i <- 0xA` (R101). -/
def doDigL (i : Fin 4) (dp : Bool) (s : State) : State := putDigit i 0xA dp s

/-- `DIG.BLANK`: `gc_i <- 0xB` (R102). -/
def doDigBlank (i : Fin 4) (dp : Bool) (s : State) : State := putDigit i 0xB dp s

/-- `DIG.NOMATCH`: `gc_i <- 0xF`, or 0xB under the policy BLANK (R103). The code itself leaves no trace. -/
def doDigNomatch (i : Fin 4) (dp : Bool) (_code : Code7) (s : State) : State := putDigit i (unknownCode s.cfg) dp s

/-- The operation that the byte `db` selects at digit `i`, carried out (R90: the lookup is common to all of them). -/
def runDigit (i : Fin 4) (db : Byte) (s : State) : State :=
  let dp := dpOf s.cfg db
  match romFind s.cfg (codeOf s.cfg db) with
  | some .d0 => doDig0 i dp s
  | some .d1 => doDig1 i dp s
  | some .d2 => doDig2 i dp s
  | some .d3 => doDig3 i dp s
  | some .d4 => doDig4 i dp s
  | some .d5 => doDig5 i dp s
  | some .d6 => doDig6 i dp s
  | some .d7 => doDig7 i dp s
  | some .d8 => doDig8 i dp s
  | some .d9 => doDig9 i dp s
  | some .letterL => doDigL i dp s
  | some .blank => doDigBlank i dp s
  | none => doDigNomatch i dp (codeOf s.cfg db) s

/-- `DIG.0`, as an operation of its own. No digit operation stops (R91: "Exceptions: none"). -/
def execDig0 (i : Fin 4) (dp : Bool) (s : State) : Outcome := .next (doDig0 i dp s)

/-- `DIG.1`. -/
def execDig1 (i : Fin 4) (dp : Bool) (s : State) : Outcome := .next (doDig1 i dp s)

/-- `DIG.2`. -/
def execDig2 (i : Fin 4) (dp : Bool) (s : State) : Outcome := .next (doDig2 i dp s)

/-- `DIG.3`. -/
def execDig3 (i : Fin 4) (dp : Bool) (s : State) : Outcome := .next (doDig3 i dp s)

/-- `DIG.4`. -/
def execDig4 (i : Fin 4) (dp : Bool) (s : State) : Outcome := .next (doDig4 i dp s)

/-- `DIG.5`. -/
def execDig5 (i : Fin 4) (dp : Bool) (s : State) : Outcome := .next (doDig5 i dp s)

/-- `DIG.6`. -/
def execDig6 (i : Fin 4) (dp : Bool) (s : State) : Outcome := .next (doDig6 i dp s)

/-- `DIG.7`. -/
def execDig7 (i : Fin 4) (dp : Bool) (s : State) : Outcome := .next (doDig7 i dp s)

/-- `DIG.8`. -/
def execDig8 (i : Fin 4) (dp : Bool) (s : State) : Outcome := .next (doDig8 i dp s)

/-- `DIG.9`. -/
def execDig9 (i : Fin 4) (dp : Bool) (s : State) : Outcome := .next (doDig9 i dp s)

/-- `DIG.L`. -/
def execDigL (i : Fin 4) (dp : Bool) (s : State) : Outcome := .next (doDigL i dp s)

/-- `DIG.BLANK`. -/
def execDigBlank (i : Fin 4) (dp : Bool) (s : State) : Outcome := .next (doDigBlank i dp s)

/-- `DIG.NOMATCH`. -/
def execDigNomatch (i : Fin 4) (dp : Bool) (code : Code7) (s : State) : Outcome := .next (doDigNomatch i dp code s)

end Sys2Proof.Machine
end

