-- ==== Sys2Proof/Machine/Label.lean ====
section
/-! DEFINITION. The label operations LBL.G0 .. LBL.G4 (R115 to R121): each masks one byte with its own group's presence
mask, and none reads another group. -/

namespace Sys2Proof.Machine

/-- `LBL.G0`, temperature/continuity unit: `out_lbl[0] <- lb_0 AND VMASK[0]` (R116). -/
def doLblG0 (lb : Byte) (s : State) : State := putLabel 0 lb s

/-- `LBL.G1`, electrical unit: `out_lbl[1] <- lb_1 AND VMASK[1]` (R117). -/
def doLblG1 (lb : Byte) (s : State) : State := putLabel 1 lb s

/-- `LBL.G2`, mode: `out_lbl[2] <- lb_2 AND VMASK[2]` (R118). -/
def doLblG2 (lb : Byte) (s : State) : State := putLabel 2 lb s

/-- `LBL.G3`, display state: `out_lbl[3] <- lb_3 AND VMASK[3]` (R119). -/
def doLblG3 (lb : Byte) (s : State) : State := putLabel 3 lb s

/-- `LBL.G4`, secondary mode: `out_lbl[4] <- lb_4 AND VMASK[4]` (R120). -/
def doLblG4 (lb : Byte) (s : State) : State := putLabel 4 lb s

/-- `LBL.G0`, as an operation of its own. -/
def execLblG0 (lb : Byte) (s : State) : Outcome := .next (doLblG0 lb s)

/-- `LBL.G1`. -/
def execLblG1 (lb : Byte) (s : State) : Outcome := .next (doLblG1 lb s)

/-- `LBL.G2`. -/
def execLblG2 (lb : Byte) (s : State) : Outcome := .next (doLblG2 lb s)

/-- `LBL.G3`. -/
def execLblG3 (lb : Byte) (s : State) : Outcome := .next (doLblG3 lb s)

/-- `LBL.G4`. -/
def execLblG4 (lb : Byte) (s : State) : Outcome := .next (doLblG4 lb s)

end Sys2Proof.Machine
end

