-- ==== Sys2Proof/Machine/Validate.lean ====
section
/-! DEFINITION. The validator: the validity condition (R85) and its two operations VAL.ACCEPT (R86), which decodes the
frame into one reading, and VAL.REJECT (R87), which leaves no trace. -/

namespace Sys2Proof.Machine

/-- `Valid(F)`: the length and the two header bytes, and nothing else (R85). -/
def validFrame (cfg : Config) (F : Frame) : Bool :=
  decide (F.length = cfg.frameLen) && byteAt F 0 == cfg.hdr1 && byteAt F 1 == cfg.hdr2

/-- The digit decoder on a frame: digits 0 to 3 (R90). -/
def decodeDigits (F : Frame) (s : State) : State :=
  let s0 := runDigit 0 (digitByte s.cfg F 0) s
  let s1 := runDigit 1 (digitByte s0.cfg F 1) s0
  let s2 := runDigit 2 (digitByte s1.cfg F 2) s1
  runDigit 3 (digitByte s2.cfg F 3) s2

/-- The label decoder on a frame: groups 0 to 4 (R115, R121). -/
def decodeLabels (F : Frame) (s : State) : State :=
  let s0 := doLblG0 (labelByte s.cfg F 0) s
  let s1 := doLblG1 (labelByte s0.cfg F 1) s0
  let s2 := doLblG2 (labelByte s1.cfg F 2) s1
  let s3 := doLblG3 (labelByte s2.cfg F 3) s2
  doLblG4 (labelByte s3.cfg F 4) s3

/-- `Decode(F)`: digits, labels and value, then exactly one reading stamped with `now` (R86, R125). -/
def decodeReading (F : Frame) (s : State) : State := present (classify (decodeLabels F (decodeDigits F s)))

/-- `VAL.ACCEPT`: `if Valid(F) then Decode(F)` (R86). -/
def doValAccept (F : Frame) (s : State) : State := if validFrame s.cfg F then decodeReading F s else s

/-- `VAL.REJECT`: `if not Valid(F) then discard F`. "No reading is formed, no output changes, and no state changes." (R87) -/
def doValReject (_F : Frame) (s : State) : State := s

/-- The operation that the header of an emitted frame selects, carried out (R52, R85). -/
def runValidator (F : Frame) (s : State) : State :=
  if headerOf F = headerSignature s.cfg then doValAccept F s else doValReject F s

/-- `VAL.ACCEPT`, as an operation of its own. "Decode never fails" (R86). -/
def execValAccept (F : Frame) (s : State) : Outcome := .next (doValAccept F s)

/-- `VAL.REJECT`. -/
def execValReject (F : Frame) (s : State) : Outcome := .next (doValReject F s)

end Sys2Proof.Machine
end

