-- ==== Sys2Proof/Machine/Sync.lean ====
section
/-! DEFINITION. The synchronizer: SYNC.HDR (R71) and SYNC.DATA (R72), each followed by sub-operations 3 to 5 of the step
(R70): overflow drop, emission, and for an emitted frame its validation and decoding, all in the same step (R43). -/

namespace Sys2Proof.Machine

/-- Sub-operations 3 to 5 of R70. -/
def finishStep (s : State) : State :=
  match emit (overflow s) with
  | (s', none) => s'
  | (s', some F) => runValidator F s'

/-- `SYNC.HDR`: "`cand <- [] ; cand <- cand ++ [b]`", `b` being `HDR1` (R71; clear, then append: C5). -/
def doSyncHdr (s : State) : State := finishStep (append s.cfg.hdr1 (restart s))

/-- `SYNC.DATA`: "`cand <- cand ++ [b]`" (R72). -/
def doSyncData (b : Byte) (s : State) : State := finishStep (append b s)

/-- `SYNC.HDR`, as an operation of its own. -/
def execSyncHdr (s : State) : Outcome := .next (doSyncHdr s)

/-- `SYNC.DATA`. -/
def execSyncData (b : Byte) (s : State) : Outcome := .next (doSyncData b s)

end Sys2Proof.Machine
end

