-- ==== Sys2Proof/Machine/Dispatch.lean ====
section
/-! DEFINITION. The meaning of every operation: one arm for each constructor of `Instr`. -/

namespace Sys2Proof.Machine

def exec (i : Instr) (s : State) : Host.Outcome State Fault Refusal :=
  match i with
  | .syncHdr => Sys2Proof.Machine.execSyncHdr s
  | .syncData b => Sys2Proof.Machine.execSyncData b s
  | .valAccept F => Sys2Proof.Machine.execValAccept F s
  | .valReject F => Sys2Proof.Machine.execValReject F s
  | .dig0 pos dp => Sys2Proof.Machine.execDig0 pos dp s
  | .dig1 pos dp => Sys2Proof.Machine.execDig1 pos dp s
  | .dig2 pos dp => Sys2Proof.Machine.execDig2 pos dp s
  | .dig3 pos dp => Sys2Proof.Machine.execDig3 pos dp s
  | .dig4 pos dp => Sys2Proof.Machine.execDig4 pos dp s
  | .dig5 pos dp => Sys2Proof.Machine.execDig5 pos dp s
  | .dig6 pos dp => Sys2Proof.Machine.execDig6 pos dp s
  | .dig7 pos dp => Sys2Proof.Machine.execDig7 pos dp s
  | .dig8 pos dp => Sys2Proof.Machine.execDig8 pos dp s
  | .dig9 pos dp => Sys2Proof.Machine.execDig9 pos dp s
  | .digL pos dp => Sys2Proof.Machine.execDigL pos dp s
  | .digBlank pos dp => Sys2Proof.Machine.execDigBlank pos dp s
  | .digNomatch pos dp code => Sys2Proof.Machine.execDigNomatch pos dp code s
  | .lblG0 lb => Sys2Proof.Machine.execLblG0 lb s
  | .lblG1 lb => Sys2Proof.Machine.execLblG1 lb s
  | .lblG2 lb => Sys2Proof.Machine.execLblG2 lb s
  | .lblG3 lb => Sys2Proof.Machine.execLblG3 lb s
  | .lblG4 lb => Sys2Proof.Machine.execLblG4 lb s

end Sys2Proof.Machine
end

