-- ==== Sys2Proof/Machine/Step.lean ====
section
/-! DEFINITION. One step of the machine: one rising edge of `clk` (R129 to R131, R160). An edge that accepts a byte is
one step of R14: the byte selects its operation, and the operation carries out the whole step. -/

namespace Sys2Proof.Machine

/-- One rising edge. Reset wins (R144); without a byte the edge is idle and `cand` keeps its contents (R78, R130). -/
def step (s : State) : Host.Outcome State Fault Refusal :=
  match edgeOf (port s) with
  | .reset => .next (advance (resetEdge s))
  | .idle => .next (advance (beginEdge s))
  | .byte b _ => mapNext advance (exec (decodeByte s.cfg b) (beginEdge s))

/-- The port values that offer the byte `b` where `p` stands, with the timestamp `p` drives. -/
def offering (b : Byte) (p : PortIn) : PortIn := { p with rst := false, inValid := true, inData := b }

/-- The state whose next step runs the table word `w` (numbered as `decodeTableWord` reads it). A byte is offered on the
ports at the next edge. A header word is the frame of `decodeTableWord`: the buffer holds all of it but its last byte,
and that byte is offered, so that the next step emits the frame and its header selects the operation (log entry 8). -/
def State.withFetchWord (s : State) (nbits w : Nat) : State :=
  if nbits ≤ 8 then { s with inputs := offering (BitVec.ofNat 8 w) (port s) :: s.inputs.tail }
  else
    { s with
      cand := (frameOfHeader s.cfg w).dropLast
      inputs := offering ((frameOfHeader s.cfg w).getLastD 0) (port s) :: s.inputs.tail }

end Sys2Proof.Machine
end

