-- ==== Sys2Proof/Machine/Transaction.lean ====
section
/-! DEFINITION. The transaction-level view: the function `Step(cfg, s, b, now) -> (s', out?)` of R14, written directly
from the five sub-operations of R70 and the reading of R125, over the only state of that level, `cand` (R161). The
cycle-level machine of Step.lean is written register by register; that the two agree (R133) is a statement. -/

namespace Sys2Proof.Machine

/-- The reading of a frame (R125), field by field from R90, R105, R106, R121 and R127. -/
def readingOf (cfg : Config) (F : Frame) (now : Nat) : Reading :=
  let gc : Vector GlyphCode 4 := Vector.ofFn (fun i => romDig cfg (codeOf cfg (digitByte cfg F i)))
  let dp : Vector Bool 4 := Vector.ofFn (fun i => dpOf cfg (digitByte cfg F i))
  let n := numericOf gc dp
  { digCode := gc
    digDp := dp
    numeric := n
    mant := if n then BitVec.ofNat 14 (mantissaOf gc) else 0
    scale := if n then BitVec.ofNat 3 (scaleOf gc dp) else 0
    lbl := Vector.ofFn (fun g => labelByte cfg F g &&& vmask cfg g)
    ts := sampleNow cfg now }

/-- `Step` of R14, in the order of R70. -/
def transactionStep (cfg : Config) (cand : List Byte) (b : Byte) (now : Nat) : List Byte × Option Reading :=
  let restarted := if b = cfg.hdr1 then [] else cand
  let appended := restarted ++ [b]
  let kept := if cfg.maxBuf ≤ appended.length then appended.dropLast else appended
  if kept.length = cfg.frameLen then
    ([], if validFrame cfg kept then some (readingOf cfg kept now) else none)
  else (kept, none)

/-- The transaction-level run over the values the ports carry: the last `cand`, and the readings in order. A reset goes
back to `Init(cfg)` (R161), an idle edge is no step (R130). -/
def transactionRun (cfg : Config) (cand : List Byte) : List PortIn → List Byte × List Reading
  | [] => (cand, [])
  | p :: ps =>
    match edgeOf p with
    | .reset => transactionRun cfg [] ps
    | .idle => transactionRun cfg cand ps
    | .byte b now =>
      let first := transactionStep cfg cand b now
      let later := transactionRun cfg first.1 ps
      (later.1, first.2.toList ++ later.2)

/-- The bytes accepted from a list of port values, in order (R130). -/
def acceptedBytes (ps : List PortIn) : List Byte :=
  ps.filterMap (fun p => match edgeOf p with
    | .byte b _ => some b
    | .reset => none
    | .idle => none)

end Sys2Proof.Machine
end

