-- ==== Sys2Proof/Machine/Realization.lean ====
section
/-! DEFINITION. The hardware realization that R24 and R75 describe: `FRAME_LEN - 1` byte cells and a fill counter, no
overflow logic, and a completing byte that goes straight into the emitted frame. That it behaves as the buffer of R20 is
a statement. -/

namespace Sys2Proof.Machine

/-- The cells and the fill counter of R24. The cells at and above `fill` hold stale bytes. -/
structure Realized where
  cells : List Byte
  fill : Nat
deriving DecidableEq, Repr

/-- The candidate a realization stands for: the filled cells. -/
def Realized.cand (r : Realized) : List Byte := r.cells.take r.fill

/-- The realization right after reset: any cell contents, nothing filled. -/
def Realized.cleared (r : Realized) : Realized := { r with fill := 0 }

/-- The realization has its `FRAME_LEN - 1` cells, and the counter stays within them (R24, R81). -/
def Realized.fits (cfg : Config) (r : Realized) : Bool :=
  decide (r.cells.length = cfg.frameLen - 1) && decide (r.fill ≤ cfg.frameLen - 1)

/-- One accepted byte in the realization. -/
def realizedStep (cfg : Config) (r : Realized) (b : Byte) (now : Nat) : Realized × Option Reading :=
  if b = cfg.hdr1 then ({ cells := r.cells.set 0 b, fill := 1 }, none)
  else if r.fill = cfg.frameLen - 1 then
    (r.cleared, if validFrame cfg (r.cand ++ [b]) then some (readingOf cfg (r.cand ++ [b]) now) else none)
  else ({ cells := r.cells.set r.fill b, fill := r.fill + 1 }, none)

end Sys2Proof.Machine
end

