-- ==== Sys2Proof/Machine/Render.lean ====
section
/-! DEFINITION. What a reading means to its consumer, as functions of the output fields: digit string and fallback value
(R104, R108), label string (R122), exact value (R106, R110), and the triple (value, label, timestamp) of the source
(R126). The core outputs fields; these functions say which strings they stand for. -/

namespace Sys2Proof.Machine

/-- `gs(code)`: the string of a glyph code (R55); NOMATCH is rendered `?` (R104). BLANK has the empty string, and so
have the codes 0xC to 0xE, which are never produced. -/
def glyphString (gc : GlyphCode) : Text :=
  if isDigitCode gc then [Char.ofNat (48 + gc.toNat)]
  else if gc = 0xA then ['L']
  else if gc = 0xF then ['?']
  else []

/-- `ds_i = (dp_i ? "." : "") ++ gs(gc_i)` (R104). -/
def digitSubstring (gc : GlyphCode) (dp : Bool) : Text := (if dp then ['.'] else []) ++ glyphString gc

/-- `S = ds_0 ++ ds_1 ++ ds_2 ++ ds_3` (R104), from the digit registers alone (R108). -/
def digitString (gc : Vector GlyphCode 4) (dp : Vector Bool 4) : Text :=
  digitSubstring (gc.get 0) (dp.get 0) ++ digitSubstring (gc.get 1) (dp.get 1) ++
    digitSubstring (gc.get 2) (dp.get 2) ++ digitSubstring (gc.get 3) (dp.get 3)

/-- `frag_g`: the fragments of the set bits of one group's select byte, lowest bit first (R116 to R120, R122). -/
def groupLabel (cfg : Config) (g : Fin 5) (sel : Byte) : Text :=
  (List.finRange 8).flatMap (fun k => if sel.getLsbD k.val then (fragment cfg g k).getD [] else [])

/-- The label string: the five groups in their fixed order (R122). -/
def labelString (cfg : Config) (lbl : Vector Byte 5) : Text :=
  (List.finRange 5).flatMap (fun g => groupLabel cfg g (lbl.get g))

/-- The value of a reading: an exact decimal number, or the raw digit string (R106, R108). -/
inductive Value where
  | number (q : ℚ)
  | fallback (S : Text)
deriving DecidableEq, Repr

/-- `R.mant / 10^R.scale` when numeric, else the fallback string (R126). -/
def valueOf (r : Reading) : Value :=
  if r.numeric then .number ((r.mant.toNat : ℚ) / (10 : ℚ) ^ r.scale.toNat) else .fallback (digitString r.digCode r.digDp)

/-- The source's reading: the triple (value, label, timestamp) (R126). -/
def sourceReading (cfg : Config) (r : Reading) : Value × Text × Nat := (valueOf r, labelString cfg r.lbl, r.ts)

/-! ### The decimal literals of R105 -/

/-- A decimal digit character. -/
def isDigitChar (c : Char) : Bool := decide (48 ≤ c.toNat ∧ c.toNat ≤ 57)

/-- The number a string of digit characters spells. -/
def digitsValue (t : Text) : Nat := t.foldl (fun m c => 10 * m + (c.toNat - 48)) 0

/-- Reads a string of the form `[0-9]*\.?[0-9]*` with at least one digit: the digits' number, and how many of them stand
after the point. `none` for any other string (R105). -/
def parseDecimal (t : Text) : Option (Nat × Nat) :=
  let whole := t.takeWhile isDigitChar
  match t.dropWhile isDigitChar with
  | [] => if whole.isEmpty then none else some (digitsValue whole, 0)
  | c :: rest =>
    if c == '.' && rest.all isDigitChar && (!whole.isEmpty || !rest.isEmpty) then
      some (digitsValue (whole ++ rest), rest.length)
    else none

end Sys2Proof.Machine
end

