-- ==== Sys2Proof/Machine/Stream.lean ====
section
/-! DEFINITION. The stream notation of R61 to R64: items of a stream program, their expansion to bytes, and the port
values a program stands for. It is notation for inputs (D17), not a part of the core. -/

namespace Sys2Proof.Machine

/-- What stands between the brackets of `DIG(c)`: a glyph, or `#NN`, a raw 7-bit code (R62). -/
inductive DigitName where
  | glyph (g : Glyph)
  | raw (code : Code7)
deriving DecidableEq, Repr

/-- A digit item: a leading `.` or not, and the name (R62). -/
structure DigitItem where
  dp : Bool
  name : DigitName
deriving DecidableEq, Repr

/-- The 7-bit code of a digit item (R62). -/
def DigitItem.code (cfg : Config) (d : DigitItem) : Code7 :=
  match d.name with
  | .glyph g => (romCode cfg g).setWidth 7
  | .raw code => code

/-- `DIG(c)`: the decimal point and the code (R62). -/
def digItemByte (cfg : Config) (d : DigitItem) : Byte := digitByteOf cfg d.dp (d.code cfg)

/-- The offsets that `FRAME` writes: 0, 1, the digits' and the labels' (R63). -/
def frameOffsets (cfg : Config) : List Nat := [0, 1] ++ cfg.digitOff.toList ++ cfg.labelOff.toList

/-- The bytes `E[0 .. FRAME_LEN-1]` of `FRAME(c0 c1 c2 c3 ; l0 l1 l2 l3 l4 ; fill=XX)` (R63). -/
def frameBytes (cfg : Config) (c : Vector DigitItem 4) (l : Vector Byte 5) (fill : Byte) : Frame :=
  let blank := ((List.replicate cfg.frameLen fill).set 0 cfg.hdr1).set 1 cfg.hdr2
  let digits := (List.finRange 4).foldl (fun E i => E.set (cfg.digitOff.get i) (digItemByte cfg (c.get i))) blank
  (List.finRange 5).foldl (fun E g => E.set (cfg.labelOff.get g) (l.get g)) digits

/-- `FRAME`: refused if two of the offsets coincide or a byte after the first equals `HDR1` (R63). -/
def expandFrame (cfg : Config) (c : Vector DigitItem 4) (l : Vector Byte 5) (fill : Byte) : Option Frame :=
  let E := frameBytes cfg c l fill
  if (frameOffsets cfg).Nodup ∧ cfg.hdr1 ∉ E.tail then some E else none

/-- The items of a stream program (R61 to R64). -/
inductive StreamItem where
  | byte (b : Byte)
  | rst
  | time (v : Nat)
  | dig (d : DigitItem)
  | frame (c : Vector DigitItem 4) (l : Vector Byte 5) (fill : Byte)
  | noise (n : Nat) (b : Byte)
  | raw (bs : List Byte)
deriving DecidableEq, Repr

/-- The edge that offers one byte with a timestamp (R61: "one input byte, one step"). -/
def byteEdge (now : Nat) (b : Byte) : PortIn := { rst := false, inValid := true, inData := b, now := now }

/-- The edge of `RST`: reset for one cycle, no byte accepted (R61). -/
def resetCycle (now : Nat) : PortIn := { rst := true, inValid := false, inData := 0, now := now }

/-- The port values of a stream program, from a given timestamp on; `none` where a `FRAME` is refused. -/
def expandProgram (cfg : Config) (now : Nat) : List StreamItem → Option (List PortIn)
  | [] => some []
  | .byte b :: rest => (expandProgram cfg now rest).map (byteEdge now b :: ·)
  | .rst :: rest => (expandProgram cfg now rest).map (resetCycle now :: ·)
  | .time v :: rest => expandProgram cfg v rest
  | .dig d :: rest => (expandProgram cfg now rest).map (byteEdge now (digItemByte cfg d) :: ·)
  | .frame c l fill :: rest =>
    (expandFrame cfg c l fill).bind fun E => (expandProgram cfg now rest).map (E.map (byteEdge now) ++ ·)
  | .noise n b :: rest => (expandProgram cfg now rest).map (List.replicate n (byteEdge now b) ++ ·)
  | .raw bs :: rest => (expandProgram cfg now rest).map (bs.map (byteEdge now) ++ ·)

end Sys2Proof.Machine
end

