-- ==== Sys2Proof/Safety.lean ====
section
/-! DEFINITION. The terms in which claims about runs are stated: the invariant of R23 and of the output registers, the
readings that a run presents (R131, R133), and the rows a frame's bytes select (R90, R121). -/

namespace Sys2Proof.Machine

/-- A glyph code the digit ROM can yield: every code but 0xC to 0xE (R55, R59). -/
def legalCode (gc : GlyphCode) : Bool := decide (gc.toNat ≤ 0xB) || gc == 0xF

/-- What holds of the state between two edges. -/
structure Inv (s : State) : Prop where
  /-- `|cand| <= FRAME_LEN - 1` (R23(a)). -/
  short : s.cand.length ≤ s.cfg.frameLen - 1
  /-- `HDR1` occurs in `cand` only at index 0 (R23(b)). -/
  magicFirst : s.cfg.hdr1 ∉ s.cand.tail
  /-- While a reading is presented the buffer is empty: the frame was handed over (R74, R131). -/
  pulseEmpty : s.outValid = true → s.cand = []
  /-- No digit register holds 0xC to 0xE (R55, R59). -/
  legal : ∀ i, legalCode (s.out.digCode.get i) = true
  /-- `out_mant` is at most 9999 and `out_scale` at most 4 (R106). -/
  range : s.out.mant.toNat ≤ 9999 ∧ s.out.scale.toNat ≤ 4
  /-- A non-numeric reading has mantissa and scale 0 (R106). -/
  zeroed : s.out.numeric = false → s.out.mant = 0 ∧ s.out.scale = 0
  /-- While a reading is presented its numeric bit is that of its digits (R105). -/
  numericBit : s.outValid = true → s.out.numeric = numericOf s.out.digCode s.out.digDp
  /-- A label bit with no fragment is 0 (R59, R121). -/
  masked : ∀ g, s.out.lbl.get g &&& vmask s.cfg g = s.out.lbl.get g
  /-- The timestamp fits its `TS_W` bits (R28). -/
  stamp : s.out.ts < 2 ^ s.cfg.tsW

/-- The readings presented on `out_valid` in the cycles after the next `k` edges, in order (R131, R133). -/
def presented : Nat → State → List Reading
  | 0, _ => []
  | k + 1, s =>
    match step s with
    | .next t => (if t.outValid then [t.out] else []) ++ presented k t
    | .fault _ => []
    | .refused _ => []

/-- The digit and label operations that the bytes of a frame select, digits first (R90, R115). -/
def frameRows (cfg : Config) (F : Frame) : List Instr :=
  [0, 1, 2, 3].map (fun i => decodeDigit cfg i (digitByte cfg F i)) ++
    [0, 1, 2, 3, 4].map (fun g => decodeLabel g (labelByte cfg F g))

/-- Operations carried out one after the other, stopping at the first that stops. -/
def execRows : List Instr → State → Outcome
  | [], s => .next s
  | i :: rest, s =>
    match exec i s with
    | .next t => execRows rest t
    | .fault r => .fault r
    | .refused r => .refused r

end Sys2Proof.Machine
end

