-- ==== Sys2Proof/Certificates/Slice0/Obligations.lean ====
section
/-! DEFINITION. The statements for the provers. Unless a statement says otherwise it holds for EVERY well-formed
configuration, and so for every value of the OPEN tables. -/

open Sys2Proof Sys2Proof.Machine

/-! ### Encodings -/

/-- Every well-formed operation is read back from its bytes, at every operand value its encoding admits. -/
def Obligations.DecodeOfEncodeIsSameRow : Prop :=
  ∀ (cfg : Config) (i : Instr), i.wf cfg = true → decode cfg i.slot (encode cfg i) = .ok i

/-- What the decoder reads is well formed, stands at its slot, and encodes to the bytes it was read from: no bit is
dropped and no pattern has two readings. -/
def Obligations.EncodeOfDecodeIsSameBytes : Prop :=
  ∀ (cfg : Config) (slot : Slot) (bytes : List Byte) (i : Instr),
    decode cfg slot bytes = .ok i → i.wf cfg = true ∧ i.slot = slot ∧ encode cfg i = bytes

/-- R50: the byte's value alone selects the operation; 0xAA is SYNC.HDR, the 255 others are SYNC.DATA. -/
def Obligations.InputByteSelectsSyncRow : Prop :=
  ∀ (cfg : Config) (b : Byte), cfg.IsStated →
    decode cfg .inByte [b] = .ok (if b = 0xAA then .syncHdr else .syncData b)

/-- R52: the header view is `F[0] * 256 + F[1]`; VAL.ACCEPT matches 0xAA55, VAL.REJECT every other header. -/
def Obligations.HeaderViewSelectsValidatorRow : Prop :=
  ∀ (cfg : Config) (F : Frame), cfg.IsStated → F.length = 22 →
    (headerOf F).toNat = (byteAt F 0).toNat * 256 + (byteAt F 1).toNat ∧
    decode cfg .frame F = .ok (if (headerOf F).toNat = 0xAA55 then .valAccept F else .valReject F)

/-- A few words written out from the encodings under the test instance of D18 (a check, not the meter's codes). -/
def Obligations.SpecWordsDecodeToTheirRows : Prop :=
  decode Config.test .inByte [0b10101010] = .ok .syncHdr ∧
  decode Config.test .inByte [0b01010101] = .ok (.syncData 0x55) ∧
  decode Config.test .frame ([0b10101010, 0b01010101] ++ List.replicate 20 0) =
    .ok (.valAccept ([0xAA, 0x55] ++ List.replicate 20 0)) ∧
  decode Config.test (.digit 1) [0b11011011] = .ok (.dig2 1 true) ∧
  decode Config.test (.digit 0) [0b00111000] = .ok (.digL 0 false) ∧
  decode Config.test (.digit 3) [0b10000001] = .ok (.digNomatch 3 true 0x01) ∧
  decode Config.test (.label 2) [0b00010010] = .ok (.lblG2 0x12)

/-! ### The synchronizer -/

/-- R71: `HDR1` selects SYNC.HDR, which leaves exactly `[HDR1]`, whatever was in the buffer, and changes nothing else. -/
def Obligations.SyncHdrLeavesOnlyMagicByte : Prop :=
  ∀ s : State, decode s.cfg .inByte [s.cfg.hdr1] = .ok .syncHdr ∧ exec .syncHdr s = .next { s with cand := [s.cfg.hdr1] }

/-- R72 and R74, in every state whose buffer is within R23(a): SYNC.DATA appends; the byte that makes `FRAME_LEN` empties
the buffer, and a reading of all the bytes, this one included, is presented exactly when they are a valid frame. R72 is
about bytes other than `HDR1`; that SYNC.DATA treats `HDR1` alike, which no pattern selects, is the model's choice (log
entry 11). The reading's fields rest on D8, D9, D12, D13 and on log entry 6 (`now` modulo `2^TS_W`). -/
def Obligations.SyncDataAppendsOrCompletesFrame : Prop :=
  ∀ (s : State) (b : Byte), s.cand.length < s.cfg.frameLen →
    exec (.syncData b) s = .next
      (if s.cand.length + 1 < s.cfg.frameLen then { s with cand := s.cand ++ [b] }
       else if validFrame s.cfg (s.cand ++ [b]) then
         { s with cand := [], outValid := true, out := readingOf s.cfg (s.cand ++ [b]) (port s).now }
       else { s with cand := [] })

/-- R73: after the append, a buffer of `MAX_BUF` bytes or more loses exactly the byte just appended; a shorter one keeps
it; and within R23(a), in any well-formed configuration, the drop never acts. -/
def Obligations.OverflowDropsNewestByte : Prop :=
  ∀ (s : State) (b : Byte),
    (overflow (append b s) = if s.cfg.maxBuf ≤ s.cand.length + 1 then s else append b s) ∧
    (s.cand.length ≤ s.cfg.frameLen - 1 → overflow (append b s) = append b s)

/-- R74: EMIT acts on exactly `FRAME_LEN` bytes: it hands over a copy of the whole buffer and clears it; at any other
length it does nothing and hands over nothing. What it hands over after a byte of SYNC.DATA, from a buffer within R23(a),
goes to the validator's row in the same operation. (Past R23(a), and for `HDR1`: SyncDataRunsSelectedValidatorRow.) -/
def Obligations.EmitHandsOverWholeBuffer : Prop :=
  ∀ s : State,
    (emit s = if s.cand.length = s.cfg.frameLen then ({ s with cand := [] }, some s.cand) else (s, none)) ∧
    ∀ (b : Byte) (t : State) (F : Frame), b ≠ s.cfg.hdr1 → s.cand.length ≤ s.cfg.frameLen - 1 →
      emit (overflow (append b s)) = (t, some F) →
      exec (.syncData b) s = exec (decodeFrame s.cfg F) t

/-- SYNC.DATA in every state and for every byte: append, overflow drop, emission, and the row that a completed frame's
header selects. Where R72 speaks, of a byte other than `HDR1` within R23(a), DataByteIsAppendedOrEmitted says it alone.
Beyond that two clauses are choices: past R23(a) the drop acts before the emission (D4, the spec's own), and `HDR1`, which
selects another row, is appended like any byte (log entry 11, the model's). -/
def Obligations.SyncDataRunsSelectedValidatorRow : Prop :=
  ∀ (s : State) (b : Byte),
    let kept := if s.cfg.maxBuf ≤ s.cand.length + 1 then s.cand else s.cand ++ [b]
    (b ≠ s.cfg.hdr1 → decode s.cfg .inByte [b] = .ok (.syncData b)) ∧
    exec (.syncData b) s =
      if kept.length = s.cfg.frameLen then exec (decodeFrame s.cfg kept) { s with cand := [] }
      else .next { s with cand := kept }

/-- R79(a), derived: a frame emitted from a state within R23 holds `HDR1` at most at index 0. -/
def Obligations.EmittedFrameHasMagicOnlyFirst : Prop :=
  ∀ (s t : State) (b : Byte) (F : Frame), Inv s → b ≠ s.cfg.hdr1 →
    emit (overflow (append b s)) = (t, some F) → F.length = s.cfg.frameLen ∧ s.cfg.hdr1 ∉ F.tail

/-- The table of R80, derived, for any `FRAME_LEN`: how an accepted byte moves the buffer between Empty and Filling(n). -/
def Obligations.SequencingTableOfPhases : Prop :=
  ∀ (s t : State) (p : PortIn) (rest : List PortIn),
    s.inputs = p :: rest → p.rst = false → p.inValid = true → s.cand.length ≤ s.cfg.frameLen - 1 → step s = .next t →
    phaseOf t.cand =
      if p.inData = s.cfg.hdr1 then .filling 1
      else match phaseOf s.cand with
        | .empty => .filling 1
        | .filling n => if n = s.cfg.frameLen - 1 then .empty else .filling (n + 1)

/-- R77, derived: at an `HDR1` byte the old candidate leaves no trace: two states that differ only in `cand` step to one state. -/
def Obligations.RestartForgetsCandidate : Prop :=
  ∀ (s : State) (c : List Byte) (p : PortIn) (rest : List PortIn),
    s.inputs = p :: rest → p.rst = false → p.inValid = true → p.inData = s.cfg.hdr1 →
    step { s with cand := c } = step s

/-! ### The validator -/

/-- R86 (the fields of R125 rest on the spec's own choices D8, D9, D12 and D13, and `now` on log entry 6): on a frame of `FRAME_LEN` bytes with the
two header bytes, whatever the other bytes hold, VAL.ACCEPT forms one reading: each digit's glyph code and decimal point,
the value fields, each label byte masked, and `now` as the ports carry it; nothing but the output registers changes. -/
def Obligations.ValAcceptFormsOneReading : Prop :=
  ∀ (s : State) (F : Frame),
    F.length = s.cfg.frameLen → byteAt F 0 = s.cfg.hdr1 → byteAt F 1 = s.cfg.hdr2 →
    let gc : Vector GlyphCode 4 := Vector.ofFn (fun i => romDig s.cfg (codeOf s.cfg (byteAt F (s.cfg.digitOff.get i))))
    let dp : Vector Bool 4 := Vector.ofFn (fun i => dpOf s.cfg (byteAt F (s.cfg.digitOff.get i)))
    exec (.valAccept F) s = .next { s with
      outValid := true
      out := {
        digCode := gc
        digDp := dp
        numeric := numericOf gc dp
        mant := if numericOf gc dp then BitVec.ofNat 14 (mantissaOf gc) else 0
        scale := if numericOf gc dp then BitVec.ofNat 3 (scaleOf gc dp) else 0
        lbl := Vector.ofFn (fun g => byteAt F (s.cfg.labelOff.get g) &&& vmask s.cfg g)
        ts := (port s).now % 2 ^ s.cfg.tsW } }

/-- R87: an emitted frame that is not valid selects VAL.REJECT, which forms no reading and changes nothing. -/
def Obligations.ValRejectLeavesNoTrace : Prop :=
  ∀ (s : State) (F : Frame),
    (F.length = s.cfg.frameLen → validFrame s.cfg F = false → decode s.cfg .frame F = .ok (.valReject F)) ∧
    exec (.valReject F) s = .next s

/-- R86, whose value fields rest on D8 and D9 (0 when not numeric), whose timestamp rests on D13 and on log entry 6 (`now`
modulo `2^TS_W`), and whose pulse rests on D14: a valid frame selects VAL.ACCEPT, whose Decode(F) is the digit and label
rows that F's bytes select, run in order, and then the value, the timestamp and the pulse. -/
def Obligations.ValAcceptRunsDecodedRows : Prop :=
  ∀ (s : State) (F : Frame), validFrame s.cfg F = true → decode s.cfg .frame F = .ok (.valAccept F) ∧
    ∃ t, execRows (frameRows s.cfg F) s = .next t ∧
      exec (.valAccept F) s = .next { t with
        outValid := true
        out := { t.out with
          numeric := numericOf t.out.digCode t.out.digDp
          mant := if numericOf t.out.digCode t.out.digDp then BitVec.ofNat 14 (mantissaOf t.out.digCode) else 0
          scale := if numericOf t.out.digCode t.out.digDp then BitVec.ofNat 3 (scaleOf t.out.digCode t.out.digDp) else 0
          ts := (port s).now % 2 ^ s.cfg.tsW } }

/-! ### The digit rows -/

/-- R91 to R100: a digit byte that carries the glyph's code selects the glyph's row, decimal point either value; the row
completes, writes its glyph code and the decimal point at its digit and nothing else, and contributes the substring the
rule gives. -/
def Obligations.DigitRowsWriteGlyphCode : Prop :=
  ∀ (s : State) (pos : Fin 4),
    let sel := fun (g : Glyph) (row : Bool → Instr) => ∀ b : Byte, (codeOf s.cfg b).setWidth 8 = romCode s.cfg g →
      decode s.cfg (.digit pos) [b] = .ok (row (dpOf s.cfg b))
    let wr := fun (gc : GlyphCode) (dp : Bool) => Host.Outcome.next (φ := Fault) (ρ := Refusal)
      { s with out := { s.out with
        digCode := s.out.digCode.set pos.val gc, digDp := s.out.digDp.set pos.val dp } }
    (sel .d0 (fun dp => .dig0 pos dp) ∧
      ∀ dp, exec (.dig0 pos dp) s = wr 0x0 dp ∧ digitSubstring 0x0 dp = (if dp then ['.'] else []) ++ ['0']) ∧
    (sel .d1 (fun dp => .dig1 pos dp) ∧
      ∀ dp, exec (.dig1 pos dp) s = wr 0x1 dp ∧ digitSubstring 0x1 dp = (if dp then ['.'] else []) ++ ['1']) ∧
    (sel .d2 (fun dp => .dig2 pos dp) ∧
      ∀ dp, exec (.dig2 pos dp) s = wr 0x2 dp ∧ digitSubstring 0x2 dp = (if dp then ['.'] else []) ++ ['2']) ∧
    (sel .d3 (fun dp => .dig3 pos dp) ∧
      ∀ dp, exec (.dig3 pos dp) s = wr 0x3 dp ∧ digitSubstring 0x3 dp = (if dp then ['.'] else []) ++ ['3']) ∧
    (sel .d4 (fun dp => .dig4 pos dp) ∧
      ∀ dp, exec (.dig4 pos dp) s = wr 0x4 dp ∧ digitSubstring 0x4 dp = (if dp then ['.'] else []) ++ ['4']) ∧
    (sel .d5 (fun dp => .dig5 pos dp) ∧
      ∀ dp, exec (.dig5 pos dp) s = wr 0x5 dp ∧ digitSubstring 0x5 dp = (if dp then ['.'] else []) ++ ['5']) ∧
    (sel .d6 (fun dp => .dig6 pos dp) ∧
      ∀ dp, exec (.dig6 pos dp) s = wr 0x6 dp ∧ digitSubstring 0x6 dp = (if dp then ['.'] else []) ++ ['6']) ∧
    (sel .d7 (fun dp => .dig7 pos dp) ∧
      ∀ dp, exec (.dig7 pos dp) s = wr 0x7 dp ∧ digitSubstring 0x7 dp = (if dp then ['.'] else []) ++ ['7']) ∧
    (sel .d8 (fun dp => .dig8 pos dp) ∧
      ∀ dp, exec (.dig8 pos dp) s = wr 0x8 dp ∧ digitSubstring 0x8 dp = (if dp then ['.'] else []) ++ ['8']) ∧
    (sel .d9 (fun dp => .dig9 pos dp) ∧
      ∀ dp, exec (.dig9 pos dp) s = wr 0x9 dp ∧ digitSubstring 0x9 dp = (if dp then ['.'] else []) ++ ['9'])

/-- R101 and R102, in the same terms: DIG.L writes 0xA, contributes `L`, and an `L` at any position makes the digits
non-numeric; DIG.BLANK writes 0xB and contributes no character but the point, and four blanks are non-numeric. -/
def Obligations.LetterAndBlankRowsWriteGlyphCode : Prop :=
  ∀ (s : State) (pos : Fin 4),
    let sel := fun (g : Glyph) (row : Bool → Instr) => ∀ b : Byte, (codeOf s.cfg b).setWidth 8 = romCode s.cfg g →
      decode s.cfg (.digit pos) [b] = .ok (row (dpOf s.cfg b))
    let wr := fun (gc : GlyphCode) (dp : Bool) => Host.Outcome.next (φ := Fault) (ρ := Refusal)
      { s with out := { s.out with
        digCode := s.out.digCode.set pos.val gc, digDp := s.out.digDp.set pos.val dp } }
    (sel .letterL (fun dp => .digL pos dp) ∧
      (∀ dp, exec (.digL pos dp) s = wr 0xA dp ∧ digitSubstring 0xA dp = (if dp then ['.'] else []) ++ ['L']) ∧
      ∀ (gc : Vector GlyphCode 4) (pts : Vector Bool 4), gc.get pos = 0xA → numericOf gc pts = false) ∧
    (sel .blank (fun dp => .digBlank pos dp) ∧
      (∀ dp, exec (.digBlank pos dp) s = wr 0xB dp ∧ digitSubstring 0xB dp = if dp then ['.'] else []) ∧
      digitString #v[0xB, 0xB, 0xB, 0xB] #v[false, false, false, false] = [] ∧
      ∀ pts : Vector Bool 4, numericOf #v[0xB, 0xB, 0xB, 0xB] pts = false)

/-- R103 and D6, the spec's own choice of policy: a code that is no glyph's selects DIG.NOMATCH, which completes and
writes 0xF, contributes `?` (D9), and makes the digits non-numeric (D8); under the policy BLANK it writes 0xB, as
DIG.BLANK does. R103 is about codes outside `DIGIT_ROM`; that the row does the same for the other codes, which never
select it, is the model's choice (log entry 11). -/
def Obligations.NomatchRowFollowsPolicy : Prop :=
  ∀ (s : State) (pos : Fin 4),
    let wr := fun (gc : GlyphCode) (dp : Bool) => Host.Outcome.next (φ := Fault) (ρ := Refusal)
      { s with out := { s.out with
        digCode := s.out.digCode.set pos.val gc, digDp := s.out.digDp.set pos.val dp } }
    (∀ b : Byte, (∀ g : Glyph, (codeOf s.cfg b).setWidth 8 ≠ romCode s.cfg g) →
      decode s.cfg (.digit pos) [b] = .ok (.digNomatch pos (dpOf s.cfg b) (codeOf s.cfg b))) ∧
    (s.cfg.unknownDigit = .noMatch →
      (∀ dp code, exec (.digNomatch pos dp code) s = wr 0xF dp ∧
        digitSubstring 0xF dp = (if dp then ['.'] else []) ++ ['?']) ∧
      ∀ (gc : Vector GlyphCode 4) (pts : Vector Bool 4), gc.get pos = 0xF → numericOf gc pts = false) ∧
    (s.cfg.unknownDigit = .blank → ∀ dp code, exec (.digNomatch pos dp code) s = wr 0xB dp)

/-- R90: for each digit of a frame, independently, the byte at offset 9, 8, 7 or 6 selects a row, and that row completes
and writes `ROM_DIG[db[6:0]]` and `db[7]` at its digit, and nothing else. -/
def Obligations.DigitLookupWritesRomEntry : Prop :=
  ∀ (s : State) (F : Frame) (pos : Fin 4), s.cfg.IsStated →
    let db := byteAt F (9 - pos.val)
    digitByte s.cfg F pos = db ∧
    ∃ row, decode s.cfg (.digit pos) [db] = .ok row ∧
      exec row s = .next { s with out := { s.out with
        digCode := s.out.digCode.set pos.val (romDig s.cfg (db.setWidth 7))
        digDp := s.out.digDp.set pos.val (db.getLsbD 7) } }

/-- R53: bit 7 of a digit byte is the decimal-point flag and bits 6:0 are the segment code; the byte of digit `i` is the
frame byte at `DIGIT_OFF[i]`, for this hardware `F[9 - i]`. -/
def Obligations.DigitByteFieldsOfFrame : Prop :=
  ∀ (cfg : Config) (F : Frame) (pos : Fin 4), cfg.IsStated →
    digitByte cfg F pos = byteAt F (cfg.digitOff.get pos) ∧ cfg.digitOff.get pos = 9 - pos.val ∧
    dpOf cfg (digitByte cfg F pos) = (byteAt F (9 - pos.val)).getLsbD 7 ∧
    (codeOf cfg (digitByte cfg F pos)).toNat = (byteAt F (9 - pos.val)).toNat % 128

/-- R25: every glyph's code reads as that glyph, the other codes read as the policy's value (D6, the spec's own choice),
and exactly 12 of the 128 entries hold a listed glyph. -/
def Obligations.RomHoldsTwelveGlyphs : Prop :=
  ∀ cfg : Config,
    (∀ g, romDig cfg ((romCode cfg g).setWidth 7) = glyphCode g) ∧
    (∀ x : Code7, (∀ g, romCode cfg g ≠ x.setWidth 8) →
      romDig cfg x = match cfg.unknownDigit with
        | .noMatch => 0xF
        | .blank => 0xB) ∧
    (List.finRange 128).countP (fun n => (romFind cfg (BitVec.ofNat 7 n.val)).isSome) = 12

/-! ### The value of a reading -/

/-- R105 and R106, which rest on the spec's own grammar (D8, K1): over the glyph codes the ROM can yield, the digit string
is a decimal literal exactly when the numeric bit says so, and then it spells the mantissa and the scale. -/
def Obligations.DigitStringParsesToMantissaAndScale : Prop :=
  ∀ (gc : Vector GlyphCode 4) (dp : Vector Bool 4), (∀ i, legalCode (gc.get i) = true) →
    parseDecimal (digitString gc dp) =
      if numericOf gc dp then some (mantissaOf gc, scaleOf gc dp) else none

/-- R106: the mantissa is at most 9999 and the scale at most 4, so the 14-bit and 3-bit registers hold them exactly; a
non-numeric reading has 0 in both. -/
def Obligations.MantissaAndScaleFitRegisters : Prop :=
  ∀ (cfg : Config) (F : Frame) (now : Nat),
    let r := readingOf cfg F now
    mantissaOf r.digCode ≤ 9999 ∧ scaleOf r.digCode r.digDp ≤ 4 ∧
    r.mant.toNat = (if r.numeric then mantissaOf r.digCode else 0) ∧
    r.scale.toNat = (if r.numeric then scaleOf r.digCode r.digDp else 0)

/-- R126 (with D8's grammar): the value of a reading is the exact number its digit string spells, or the string itself. -/
def Obligations.ReadingValueIsItsDigitString : Prop :=
  ∀ (cfg : Config) (F : Frame) (now : Nat),
    let r := readingOf cfg F now
    valueOf r = match parseDecimal (digitString r.digCode r.digDp) with
      | some (m, k) => .number ((m : ℚ) / (10 : ℚ) ^ k)
      | none => .fallback (digitString r.digCode r.digDp)

/-- R109: the digit fields, the numeric bit, mantissa, scale and the digit string are functions of the four digit bytes
alone: not of the other bytes, the labels, the time or the state before; and the same bytes give the same value and the
same label. -/
def Obligations.DigitFieldsDependOnDigitBytesOnly : Prop :=
  ∀ (s s' t t' : State) (F G : Frame), s.cfg = s'.cfg → validFrame s.cfg F = true → validFrame s.cfg G = true →
    (∀ i, digitByte s.cfg F i = digitByte s.cfg G i) →
    exec (.valAccept F) s = .next t → exec (.valAccept G) s' = .next t' →
    t.out.digCode = t'.out.digCode ∧ t.out.digDp = t'.out.digDp ∧ t.out.numeric = t'.out.numeric ∧
    t.out.mant = t'.out.mant ∧ t.out.scale = t'.out.scale ∧
    digitString t.out.digCode t.out.digDp = digitString t'.out.digCode t'.out.digDp ∧ valueOf t.out = valueOf t'.out ∧
    (F = G → labelString t.cfg t.out.lbl = labelString t'.cfg t'.out.lbl)

/-! ### The label rows -/

/-- R116 to R120: every byte at a group's offset selects that group's row, which completes, masks the byte into its own
group's register and changes nothing else; the group's fragments are those of the set bits, lowest first, and a bit
with no fragment is masked to 0. -/
def Obligations.LabelRowsWriteMaskedByte : Prop :=
  ∀ (s : State) (lb : Byte),
    let wr := fun (g : Fin 5) => Host.Outcome.next (φ := Fault) (ρ := Refusal) { s with out := { s.out with
      lbl := s.out.lbl.set g.val (lb &&& vmask s.cfg g) } }
    (decode s.cfg (.label 0) [lb] = .ok (.lblG0 lb) ∧ exec (.lblG0 lb) s = wr 0) ∧
    (decode s.cfg (.label 1) [lb] = .ok (.lblG1 lb) ∧ exec (.lblG1 lb) s = wr 1) ∧
    (decode s.cfg (.label 2) [lb] = .ok (.lblG2 lb) ∧ exec (.lblG2 lb) s = wr 2) ∧
    (decode s.cfg (.label 3) [lb] = .ok (.lblG3 lb) ∧ exec (.lblG3 lb) s = wr 3) ∧
    (decode s.cfg (.label 4) [lb] = .ok (.lblG4 lb) ∧ exec (.lblG4 lb) s = wr 4) ∧
    ∀ (g : Fin 5) (sel : Byte),
      (∀ F, labelByte s.cfg F g = byteAt F (s.cfg.labelOff.get g)) ∧
      (∀ k : Fin 8, fragment s.cfg g k = none → (lb &&& vmask s.cfg g).getLsbD k.val = false) ∧
      let frag := fun k : Fin 8 => if sel.getLsbD k.val then (fragment s.cfg g k).getD [] else []
      groupLabel s.cfg g sel = frag 0 ++ frag 1 ++ frag 2 ++ frag 3 ++ frag 4 ++ frag 5 ++ frag 6 ++ frag 7

/-- R26: the vocabulary has an entry for every group and bit, and bit `k` of `VMASK[g]` is 1 iff `VOCAB[g][k]` is not
none. -/
def Obligations.MaskBitMeansFragmentExists : Prop :=
  ∀ (cfg : Config) (g : Fin 5) (k : Fin 8), (∃ row, cfg.vocab[g.val]? = some row ∧ row[k.val]? = some (fragment cfg g k)) ∧
    (vmask cfg g).getLsbD k.val = (fragment cfg g k).isSome

/-- R56: a set bit contributes its fragment, and "a bit with no fragment contributes nothing": masking the label byte
changes no group's string. -/
def Obligations.MaskingKeepsGroupLabel : Prop :=
  ∀ (cfg : Config) (g : Fin 5) (lb : Byte), groupLabel cfg g (lb &&& vmask cfg g) = groupLabel cfg g lb

/-- R122: the label is the straight concatenation, groups in their fixed order and bits lowest first, of the fragments of
the selected bits, with no separator; it is empty when no bit is selected. -/
def Obligations.LabelStringConcatenatesGroups : Prop :=
  ∀ (cfg : Config) (lbl : Vector Byte 5),
    let frag := fun (g : Fin 5) (k : Fin 8) => if (lbl.get g).getLsbD k.val then (fragment cfg g k).getD [] else []
    let grp := fun g => frag g 0 ++ frag g 1 ++ frag g 2 ++ frag g 3 ++ frag g 4 ++ frag g 5 ++ frag g 6 ++ frag g 7
    labelString cfg lbl = grp 0 ++ grp 1 ++ grp 2 ++ grp 3 ++ grp 4 ∧
    ((∀ g, lbl.get g = 0) → labelString cfg lbl = [])

/-- R124: the label registers and the label string are functions of the five label bytes alone. -/
def Obligations.LabelsDependOnLabelBytesOnly : Prop :=
  ∀ (s s' t t' : State) (F G : Frame), s.cfg = s'.cfg → validFrame s.cfg F = true → validFrame s.cfg G = true →
    (∀ g, labelByte s.cfg F g = labelByte s.cfg G g) →
    exec (.valAccept F) s = .next t → exec (.valAccept G) s' = .next t' →
    t.out.lbl = t'.out.lbl ∧ labelString t.cfg t.out.lbl = labelString t'.cfg t'.out.lbl

/-- R44: a byte at an offset that is neither header, digit nor label does not affect the reading. -/
def Obligations.UnassignedBytesAreIgnored : Prop :=
  ∀ (s : State) (F : Frame) (j : Nat) (b : Byte),
    j ≠ 0 → j ≠ 1 → (∀ i, s.cfg.digitOff.get i ≠ j) → (∀ g, s.cfg.labelOff.get g ≠ j) →
    exec (.valAccept (F.set j b)) s = exec (.valAccept F) s

/-! ### The machine: steps, frames, invariants -/

/-- When the byte on the ports decodes to a row, the step is that row's `exec`, with `out_valid` lowered before it (R131)
and the environment's next port values after it. -/
def Obligations.StepRunsTheDecodedByte : Prop :=
  ∀ (s : State) (p : PortIn) (rest : List PortIn) (row : Instr),
    s.inputs = p :: rest → p.rst = false → p.inValid = true → decode s.cfg .inByte [p.inData] = .ok row →
    step s = mapNext (fun t => { t with inputs := t.inputs.tail }) (exec row { s with outValid := false })

/-- R140: nothing makes the core stop: every operation in every state, and every step, answers a next state. -/
def Obligations.NothingEverStops : Prop :=
  (∀ (row : Instr) (s : State), ∃ t, exec row s = .next t) ∧ ∀ s : State, ∃ t, step s = .next t

/-- Derived from R27 and R30 (D15, D20): no operation and no step writes the configuration or its tables, and the
environment's values are only read, one set per edge. -/
def Obligations.ConfigurationIsNeverWritten : Prop :=
  (∀ (row : Instr) (s t : State), exec row s = .next t → t.cfg = s.cfg ∧ t.inputs = s.inputs) ∧
  ∀ s t : State, step s = .next t → t.cfg = s.cfg ∧ t.inputs = s.inputs.tail

/-- The frame of every row: only the two SYNC rows write `cand`; a digit row writes only its own digit's two registers;
a label row writes only its own group's register. -/
def Obligations.RowsChangeOnlyTheirRegisters : Prop :=
  ∀ (row : Instr) (s t : State), exec row s = .next t →
    (row.slot ≠ .inByte → t.cand = s.cand) ∧
    (∀ pos, row.slot = .digit pos →
      t.outValid = s.outValid ∧
      (∀ j, j ≠ pos → t.out.digCode.get j = s.out.digCode.get j ∧ t.out.digDp.get j = s.out.digDp.get j) ∧
      t.out.numeric = s.out.numeric ∧ t.out.mant = s.out.mant ∧ t.out.scale = s.out.scale ∧
      t.out.lbl = s.out.lbl ∧ t.out.ts = s.out.ts) ∧
    (∀ g, row.slot = .label g →
      t.outValid = s.outValid ∧ (∀ h, h ≠ g → t.out.lbl.get h = s.out.lbl.get h) ∧
      t.out.digCode = s.out.digCode ∧ t.out.digDp = s.out.digDp ∧ t.out.numeric = s.out.numeric ∧
      t.out.mant = s.out.mant ∧ t.out.scale = s.out.scale ∧ t.out.ts = s.out.ts)

/-- Derived: the invariant (R23, R59, R105, R106, R121, R28) is kept by every edge. -/
def Obligations.EveryStepKeepsInvariant : Prop :=
  ∀ s t : State, Inv s → step s = .next t → Inv t

/-- Derived: the invariant holds right after reset, under every configuration and whatever the environment does next. -/
def Obligations.ResetMeetsInvariant : Prop :=
  ∀ (cfg : Config) (ps : List PortIn), Inv (State.resetWith cfg ps) ∧ Inv State.reset

/-- R131 and R128, the spec's own choice of interface (D14): at an edge without reset, a reading is presented exactly when
the accepted byte completes a valid frame; otherwise `out_valid` falls and the fields keep the last reading. The reading's
fields rest on D8, D9, D12, D13 and log entry 6. -/
def Obligations.ReadingPresentedExactlyOnCompletion : Prop :=
  ∀ (s t : State) (p : PortIn) (rest : List PortIn),
    s.inputs = p :: rest → p.rst = false → s.cand.length ≤ s.cfg.frameLen - 1 → step s = .next t →
    (if p.inValid = true ∧ p.inData ≠ s.cfg.hdr1 ∧ s.cand.length + 1 = s.cfg.frameLen ∧
        validFrame s.cfg (s.cand ++ [p.inData]) = true
      then t.outValid = true ∧ t.out = readingOf s.cfg (s.cand ++ [p.inData]) p.now
      else t.outValid = false ∧ t.out = s.out)

/-- R160, the spec's own choice of reset (D3): from any register contents, also those before the first reset (R163), one
edge with `rst = 1` leaves the reset state, whatever byte is offered. -/
def Obligations.ResetEdgeFromAnyContents : Prop :=
  ∀ (s : State) (p : PortIn) (rest : List PortIn), s.inputs = p :: rest → p.rst = true →
    step s = .next (State.resetWith s.cfg rest)

/-- R162: reset in the middle of a frame discards the partial candidate and produces no reading, at the completing edge
too: the offered byte is not accepted. -/
def Obligations.ResetMidFrameDiscardsCandidate : Prop :=
  ∀ (s : State) (p : PortIn) (rest : List PortIn), s.inputs = p :: rest → p.rst = true →
    ∃ t, step s = .next t ∧ t.cand = [] ∧ t.outValid = false ∧ presented 1 s = []

/-- R130 and R78 (D2, D16): at an idle edge, and when the environment offers nothing for ever, the buffer and the output
fields keep their values, and `out_valid` is 0. -/
def Obligations.IdleEdgeKeepsCandidate : Prop :=
  ∀ s : State,
    ((∃ p rest, s.inputs = p :: rest ∧ p.rst = false ∧ p.inValid = false) ∨ s.inputs = []) →
    step s = .next { s with outValid := false, inputs := s.inputs.tail }

/-- What reset leaves (R33): the buffer empty and no reading pending (R161); the zero output registers are D3's choice,
and the OPEN parameters are free (log entry 3). -/
def Obligations.ResetRegisterValues : Prop :=
  State.reset.cand = [] ∧ State.reset.outValid = false ∧ State.reset.inputs = [] ∧
  State.reset.out =
    { digCode := #v[0x0, 0x0, 0x0, 0x0], digDp := #v[false, false, false, false], numeric := false, mant := 0,
      scale := 0, lbl := #v[0x00, 0x00, 0x00, 0x00, 0x00], ts := 0 } ∧
  State.reset.cfg.IsStated

/-- R123: this hardware's vocabulary, otherwise free, has `"V "` at some bit of group 1 and `"DC "` at some bit of group 2. -/
def Obligations.VocabularyHasScenarioFragments : Prop :=
  (∃ k, fragment State.reset.cfg 1 k = some ['V', ' ']) ∧ (∃ k, fragment State.reset.cfg 2 k = some ['D', 'C', ' '])

/-- R9: a configuration is accepted exactly when all six named checks hold, and a refusal names a check that fails. -/
def Obligations.ConfigurationChecksRefuseByName : Prop :=
  ∀ d : ConfigData,
    ((∃ c, Config.ofData d = .ok c ∧ c.toConfigData = d) ↔
      10 ≤ d.frameLen ∧ d.frameLen + 1 ≤ d.maxBuf ∧ (∀ i, d.digitOff.get i < d.frameLen) ∧
      (∀ g, d.labelOff.get g < d.frameLen) ∧
      ((∀ i j, d.digitRom.get i = d.digitRom.get j → i = j) ∧ ∀ i, (d.digitRom.get i).toNat < 0x80) ∧
      (d.vocab.length = 5 ∧ ∀ row ∈ d.vocab, row.length = 8)) ∧
    ∀ k, Config.ofData d = .error k → k.passes d = false

/-! ### Runs -/

/-- R133, derived: for every state and every list of port values, the readings presented on `out_valid` are those of the
transaction-level run over the same values, in the same order, and the buffers agree at the end. -/
def Obligations.CycleLevelMatchesTransactionLevel : Prop :=
  ∀ s : State,
    presented s.inputs.length s = (transactionRun s.cfg s.cand s.inputs).2 ∧
    ∃ t : State, Host.Core.run core s.inputs.length s = .next t ∧
      t.cand = (transactionRun s.cfg s.cand s.inputs).1 ∧ t.inputs = []

/-- R165 and R166, derived: a frame with the two header bytes and no later `HDR1`, delivered over any edges with any idle
gaps, from ANY buffer contents, ends in its reading, stamped with the `now` of its last byte (R127, D13; log entry 6). -/
def Obligations.CleanFrameIsAlwaysDelivered : Prop :=
  ∀ (s : State) (ps rest : List PortIn) (last : PortIn) (F : Frame),
    s.inputs = ps ++ [last] ++ rest → (∀ p ∈ ps, p.rst = false) → last.rst = false → last.inValid = true →
    acceptedBytes (ps ++ [last]) = F → validFrame s.cfg F = true → s.cfg.hdr1 ∉ F.tail →
    ∃ t : State, Host.Core.run core (ps.length + 1) s = .next t ∧
      t.cand = [] ∧ t.outValid = true ∧ t.out = readingOf s.cfg F last.now ∧ t.inputs = rest ∧ t.cfg = s.cfg

/-- R169, derived: noise without `HDR1` from an empty buffer presents no reading and leaves `n mod FRAME_LEN` bytes. -/
def Obligations.NoiseLeavesRemainderAndNoReading : Prop :=
  ∀ (s : State) (noise rest : List PortIn),
    s.inputs = noise ++ rest → s.cand = [] →
    (∀ p ∈ noise, p.rst = false ∧ p.inValid = true ∧ p.inData ≠ s.cfg.hdr1) →
    presented noise.length s = [] ∧
    ∃ t : State, Host.Core.run core noise.length s = .next t ∧ t.cand.length = noise.length % s.cfg.frameLen

/-- R46 and R131, derived: once a reading is presented, fewer than `FRAME_LEN` further edges present no other. -/
def Obligations.ReadingsAreFrameLengthApart : Prop :=
  ∀ (s : State) (k : Nat), Inv s → s.outValid = true → k < s.cfg.frameLen → presented k s = []

/-- R31, derived: `cand` is hidden: two states that differ only in it present the same outputs until an emission. -/
def Obligations.CandidateIsHiddenUntilEmission : Prop :=
  ∀ (s : State) (c : List Byte), s.cand.length + 1 < s.cfg.frameLen → c.length + 1 < s.cfg.frameLen →
    ∃ t t', step s = .next t ∧ step { s with cand := c } = .next t' ∧
      t'.outValid = t.outValid ∧ t'.out = t.out ∧ t'.cfg = t.cfg ∧ t'.inputs = t.inputs

/-- R167, derived: where both header bytes are equal, no reading is ever produced. -/
def Obligations.EqualHeaderBytesMeanNoReading : Prop :=
  ∀ s t : State, Inv s → s.cfg.hdr1 = s.cfg.hdr2 → step s = .next t → t.outValid = false

/-- R167, derived, under this hardware's policy: a glyph whose digit byte, with its decimal point, would equal `HDR1`
never appears so in a reading. -/
def Obligations.MagicDigitByteIsNeverRead : Prop :=
  ∀ (s t : State) (pos : Fin 4) (g : Glyph) (dp : Bool),
    Inv s → s.cfg.unknownDigit = .noMatch → s.cfg.digitOff.get pos ≠ 0 → glyphByte s.cfg dp g = s.cfg.hdr1 →
    step s = .next t → t.outValid = true →
    ¬ (t.out.digCode.get pos = glyphCode g ∧ t.out.digDp.get pos = dp)

/-- R24 and R75, derived: the realization with `FRAME_LEN - 1` cells, a fill counter, and no overflow logic keeps within
its cells and does on every byte what the transaction-level step does. -/
def Obligations.RealizationDoesTheSame : Prop :=
  ∀ (cfg : Config) (r : Realized) (b : Byte) (now : Nat), r.fits cfg = true →
    (realizedStep cfg r b now).1.fits cfg = true ∧
    ((realizedStep cfg r b now).1.cand, (realizedStep cfg r b now).2) = transactionStep cfg r.cand b now

/-- R63 (notation of D17): the bytes that `FRAME` writes, offered from any state, end in a reading that shows the digits
(looked up as R90 says, with D6's policy for unknown codes) and the labels that were written (masked, D12), stamped with
the `now` of the edges (D13) modulo `2^TS_W` (log entry 6). -/
def Obligations.WrittenFrameReadsBack : Prop :=
  ∀ (s : State) (c : Vector DigitItem 4) (l : Vector Byte 5) (fill : Byte) (F : Frame) (now : Nat) (rest : List PortIn),
    expandFrame s.cfg c l fill = some F → s.inputs = F.map (byteEdge now) ++ rest →
    ∃ t : State, Host.Core.run core s.cfg.frameLen s = .next t ∧ t.outValid = true ∧ t.cand = [] ∧
      (∀ i, t.out.digCode.get i = romDig s.cfg ((c.get i).code s.cfg) ∧ t.out.digDp.get i = (c.get i).dp) ∧
      (∀ g, t.out.lbl.get g = l.get g &&& vmask s.cfg g) ∧ t.out.ts = now % 2 ^ s.cfg.tsW

/-! ### SYNC.DATA as R72 states it -/

/-- R72: every byte but `HDR1` selects SYNC.DATA, which, from a buffer of at most `FRAME_LEN - 1` bytes (R23(a)), appends it
(to `[b]` where the buffer was empty); the byte that makes `FRAME_LEN` empties the buffer, and the whole frame goes to the
row its header selects; before that nothing but the buffer changes. -/
def Obligations.DataByteIsAppendedOrEmitted : Prop :=
  ∀ (s : State) (b : Byte), b ≠ s.cfg.hdr1 → s.cand.length ≤ s.cfg.frameLen - 1 →
    decode s.cfg .inByte [b] = .ok (.syncData b) ∧
    exec (.syncData b) s =
      if s.cand.length + 1 = s.cfg.frameLen then exec (decodeFrame s.cfg (s.cand ++ [b])) { s with cand := [] }
      else .next { s with cand := s.cand ++ [b] }
end

