-- ==== Sys2Proof/Laws/Config.lean ====
section
/-! SUPPORT. What the checks of R9 give a configuration, and what the two tables hold. -/

namespace Sys2Proof

theorem Config.passes (cfg : Config) (c : ConfigCheck) : c.passes cfg.toConfigData = true := by
  have h := cfg.ok
  simp only [ConfigData.wf, List.all_eq_true] at h
  exact h c (by cases c <;> decide)

theorem Config.ten_le_frameLen (cfg : Config) : 10 ≤ cfg.frameLen := by
  simpa [ConfigCheck.passes] using cfg.passes .wfFrameLen

theorem Config.frameLen_lt_maxBuf (cfg : Config) : cfg.frameLen < cfg.maxBuf := by
  have h := cfg.passes .wfMaxBuf
  simp only [ConfigCheck.passes, decide_eq_true_eq] at h
  omega

theorem Config.digitOff_lt (cfg : Config) (i : Fin 4) : cfg.digitOff.get i < cfg.frameLen := by
  have h := cfg.passes .wfDigitOff
  simp only [ConfigCheck.passes, List.all_eq_true, decide_eq_true_eq] at h
  exact h _ (by simp [Vector.get])

theorem Config.labelOff_lt (cfg : Config) (g : Fin 5) : cfg.labelOff.get g < cfg.frameLen := by
  have h := cfg.passes .wfLabelOff
  simp only [ConfigCheck.passes, List.all_eq_true, decide_eq_true_eq] at h
  exact h _ (by simp [Vector.get])

theorem Config.digitRom_nodup (cfg : Config) : cfg.digitRom.toList.Nodup := by
  have h := cfg.passes .wfRom
  simp only [ConfigCheck.passes, Bool.and_eq_true, decide_eq_true_eq] at h
  exact h.1

namespace Machine

theorem romCode_lt (cfg : Config) (g : Glyph) : (romCode cfg g).toNat < 0x80 := by
  have h := cfg.passes .wfRom
  simp only [ConfigCheck.passes, Bool.and_eq_true, List.all_eq_true, decide_eq_true_eq] at h
  exact h.2 _ (by simp [romCode, Vector.get])

theorem glyph_index_injective {g g' : Glyph} (h : g.index = g'.index) : g = g' := by
  cases g <;> cases g' <;> first | rfl | (exact absurd h (by decide))

theorem romCode_injective (cfg : Config) {g g' : Glyph} (h : romCode cfg g = romCode cfg g') : g = g' := by
  have nd := cfg.digitRom_nodup
  apply glyph_index_injective
  have h' : cfg.digitRom.toList[g.index.val]'(by simp) = cfg.digitRom.toList[g'.index.val]'(by simp) := by
    simpa [romCode, Vector.get] using h
  exact Fin.ext ((List.Nodup.getElem_inj_iff nd).mp h')

/-- A glyph's code, cut to its seven bits, loses nothing (wf_rom). -/
theorem romCode_setWidth (cfg : Config) (g : Glyph) : ((romCode cfg g).setWidth 7).setWidth 8 = romCode cfg g := by
  have h := romCode_lt cfg g
  apply BitVec.eq_of_toNat_eq
  simp only [BitVec.toNat_setWidth]
  omega

theorem glyph_mem_all (g : Glyph) : g ∈ Glyph.all := by cases g <;> decide

theorem romFind_eq_some {cfg : Config} {x : Code7} {g : Glyph} :
    romFind cfg x = some g ↔ romCode cfg g = x.setWidth 8 := by
  constructor
  · intro h
    simpa using List.find?_some h
  · intro h
    unfold romFind
    have hs : (Glyph.all.find? (fun g => romCode cfg g == x.setWidth 8)).isSome := by
      rw [List.find?_isSome]
      exact ⟨g, glyph_mem_all g, by simp [h]⟩
    obtain ⟨g', hg'⟩ := Option.isSome_iff_exists.mp hs
    have h' : romCode cfg g' = x.setWidth 8 := by simpa using List.find?_some hg'
    rw [hg', romCode_injective cfg (h'.trans h.symm)]

theorem romFind_eq_none {cfg : Config} {x : Code7} :
    romFind cfg x = none ↔ ∀ g, romCode cfg g ≠ x.setWidth 8 := by
  constructor
  · intro h g hg
    rw [romFind_eq_some.mpr hg] at h
    cases h
  · intro h
    cases hf : romFind cfg x with
    | none => rfl
    | some g => exact absurd (romFind_eq_some.mp hf) (h g)

@[simp] theorem romFind_romCode (cfg : Config) (g : Glyph) : romFind cfg ((romCode cfg g).setWidth 7) = some g :=
  romFind_eq_some.mpr (romCode_setWidth cfg g).symm

theorem romDig_of_find {cfg : Config} {x : Code7} {g : Glyph} (h : romFind cfg x = some g) :
    romDig cfg x = glyphCode g := by simp [romDig, h]

theorem romDig_of_none {cfg : Config} {x : Code7} (h : romFind cfg x = none) :
    romDig cfg x = unknownCode cfg := by simp [romDig, h]

theorem getLsbD_byteOfBits (f : Fin 8 → Bool) (k : Fin 8) : (byteOfBits f).getLsbD k.val = f k := by
  have table : ∀ a b c d e g h i : Bool, ∀ k : Fin 8,
      (byteOfBits ![a, b, c, d, e, g, h, i]).getLsbD k.val = ![a, b, c, d, e, g, h, i] k := by decide
  have hf : f = ![f 0, f 1, f 2, f 3, f 4, f 5, f 6, f 7] := by
    funext k
    fin_cases k <;> rfl
  rw [hf]
  exact table _ _ _ _ _ _ _ _ k

end Machine

end Sys2Proof
end

