-- ==== Sys2Proof/Laws/Operands.lean ====
section
/-! SUPPORT. The digit byte and its two fields determine each other, and the header view compares both header bytes. -/

namespace Sys2Proof.Machine

theorem removeBit_insertBit (p : Fin 8) (dp : Bool) (c : Code7) : removeBit p (insertBit p dp c) = c := by
  revert p dp c
  decide

theorem getLsbD_insertBit (p : Fin 8) (dp : Bool) (c : Code7) : (insertBit p dp c).getLsbD p.val = dp := by
  revert p dp c
  decide

theorem insertBit_removeBit (p : Fin 8) (b : Byte) : insertBit p (b.getLsbD p.val) (removeBit p b) = b := by
  revert p b
  decide

@[simp] theorem codeOf_digitByteOf (cfg : Config) (dp : Bool) (c : Code7) : codeOf cfg (digitByteOf cfg dp c) = c :=
  removeBit_insertBit ..

@[simp] theorem dpOf_digitByteOf (cfg : Config) (dp : Bool) (c : Code7) : dpOf cfg (digitByteOf cfg dp c) = dp :=
  getLsbD_insertBit ..

@[simp] theorem digitByteOf_fields (cfg : Config) (b : Byte) : digitByteOf cfg (dpOf cfg b) (codeOf cfg b) = b :=
  insertBit_removeBit ..

/-- A glyph's digit byte is read back as that glyph (R53, R91 to R102). -/
@[simp] theorem decodeDigit_glyphByte (cfg : Config) (pos : Fin 4) (dp : Bool) (g : Glyph) :
    decodeDigit cfg pos (glyphByte cfg dp g) = digitInstr pos dp g := by
  simp [decodeDigit, glyphByte]

theorem append_byte_toNat (a b : Byte) : (a ++ b).toNat = a.toNat * 256 + b.toNat := by
  rw [BitVec.toNat_append, ← Nat.shiftLeft_add_eq_or_of_lt b.isLt, Nat.shiftLeft_eq]

theorem append_byte_inj {a b c d : Byte} (h : a ++ b = c ++ d) : a = c ∧ b = d := by
  have h' := congrArg BitVec.toNat h
  rw [append_byte_toNat, append_byte_toNat] at h'
  have hb := b.isLt
  have hd := d.isLt
  constructor <;> apply BitVec.eq_of_toNat_eq <;> omega

theorem headerOf_eq_iff {cfg : Config} {F : Frame} :
    headerOf F = headerSignature cfg ↔ byteAt F 0 = cfg.hdr1 ∧ byteAt F 1 = cfg.hdr2 := by
  constructor
  · exact append_byte_inj
  · rintro ⟨h1, h2⟩
    simp [headerOf, headerSignature, h1, h2]

/-- The two numbers the opcode table compares (R52). -/
theorem headerOf_toNat (F : Frame) : (headerOf F).toNat = (byteAt F 0).toNat * 256 + (byteAt F 1).toNat :=
  append_byte_toNat ..

end Sys2Proof.Machine
end

