-- ==== Sys2Proof/Laws/PerInstr.lean ====
section
/-! SUPPORT. The per-instruction family: how many bytes an operation's encoding has (R50 to R56). -/

/-- The encoding of a well-formed operation has one byte, or, for the two frame operations, `FRAME_LEN` bytes (R51). -/
def Sys2Proof.Laws.EncodedLength.Statement : Sys2Proof.Instr → Prop := fun i =>
  ∀ cfg : Sys2Proof.Config, i.wf cfg = true →
    (Sys2Proof.encode cfg i).length = if i.slot = Sys2Proof.Slot.frame then cfg.frameLen else 1

namespace Sys2Proof.Laws.EncodedLength

open Sys2Proof

theorem syncHdr : Statement .syncHdr := fun _ _ => rfl

theorem syncData (b : Byte) : Statement (.syncData b) := fun _ _ => rfl

theorem valAccept (F : Frame) : Statement (.valAccept F) := by
  intro cfg h
  simp only [Instr.wf, Bool.and_eq_true, decide_eq_true_eq] at h
  exact h.1

theorem valReject (F : Frame) : Statement (.valReject F) := by
  intro cfg h
  simp only [Instr.wf, Bool.and_eq_true, decide_eq_true_eq] at h
  exact h.1

theorem dig0 (pos : Fin 4) (dp : Bool) : Statement (.dig0 pos dp) := fun _ _ => rfl

theorem dig1 (pos : Fin 4) (dp : Bool) : Statement (.dig1 pos dp) := fun _ _ => rfl

theorem dig2 (pos : Fin 4) (dp : Bool) : Statement (.dig2 pos dp) := fun _ _ => rfl

theorem dig3 (pos : Fin 4) (dp : Bool) : Statement (.dig3 pos dp) := fun _ _ => rfl

theorem dig4 (pos : Fin 4) (dp : Bool) : Statement (.dig4 pos dp) := fun _ _ => rfl

theorem dig5 (pos : Fin 4) (dp : Bool) : Statement (.dig5 pos dp) := fun _ _ => rfl

theorem dig6 (pos : Fin 4) (dp : Bool) : Statement (.dig6 pos dp) := fun _ _ => rfl

theorem dig7 (pos : Fin 4) (dp : Bool) : Statement (.dig7 pos dp) := fun _ _ => rfl

theorem dig8 (pos : Fin 4) (dp : Bool) : Statement (.dig8 pos dp) := fun _ _ => rfl

theorem dig9 (pos : Fin 4) (dp : Bool) : Statement (.dig9 pos dp) := fun _ _ => rfl

theorem digL (pos : Fin 4) (dp : Bool) : Statement (.digL pos dp) := fun _ _ => rfl

theorem digBlank (pos : Fin 4) (dp : Bool) : Statement (.digBlank pos dp) := fun _ _ => rfl

theorem digNomatch (pos : Fin 4) (dp : Bool) (code : Code7) : Statement (.digNomatch pos dp code) := fun _ _ => rfl

theorem lblG0 (lb : Byte) : Statement (.lblG0 lb) := fun _ _ => rfl

theorem lblG1 (lb : Byte) : Statement (.lblG1 lb) := fun _ _ => rfl

theorem lblG2 (lb : Byte) : Statement (.lblG2 lb) := fun _ _ => rfl

theorem lblG3 (lb : Byte) : Statement (.lblG3 lb) := fun _ _ => rfl

theorem lblG4 (lb : Byte) : Statement (.lblG4 lb) := fun _ _ => rfl

end Sys2Proof.Laws.EncodedLength
end

