-- ==== Sys2Proof/Laws/State.lean ====
section
/-! SUPPORT. One lemma per field per state operation, so that no later proof unfolds a record update. -/

namespace Sys2Proof.Machine

/-! ### Reading an indexed register -/

/-- A register file read after a write. -/
@[simp] theorem get_set {α : Type} {n : Nat} (v : Vector α n) (i j : Fin n) (x : α) :
    (v.set i.val x).get j = if j = i then x else v.get j := by
  change (v.set i.val x)[j.val] = if j = i then x else v[j.val]
  simp only [Vector.getElem_set, Fin.ext_iff, eq_comm]

@[simp] theorem get_ofFn {α : Type} {n : Nat} (f : Fin n → α) (i : Fin n) : (Vector.ofFn f).get i = f i := by
  change (Vector.ofFn f)[i.val] = f i
  simp

/-- Four registers are their four values. -/
theorem vector4_eta {α : Type} (v : Vector α 4) : v = #v[v.get 0, v.get 1, v.get 2, v.get 3] := by
  apply Vector.ext
  intro j hj
  rcases j with _ | _ | _ | _ | j <;> first | rfl | omega

/-- Two register files that read alike are equal. -/
theorem vector_ext_get {α : Type} {n : Nat} {v w : Vector α n} (h : ∀ i, v.get i = w.get i) : v = w := by
  apply Vector.ext
  intro j hj
  exact h ⟨j, hj⟩

/-! ### Fields after each operation -/

@[simp] theorem restart_cfg (s : State) : (restart s).cfg = s.cfg := rfl
@[simp] theorem restart_cand (s : State) : (restart s).cand = [] := rfl
@[simp] theorem restart_outValid (s : State) : (restart s).outValid = s.outValid := rfl
@[simp] theorem restart_inputs (s : State) : (restart s).inputs = s.inputs := rfl
@[simp] theorem restart_out (s : State) : (restart s).out = s.out := rfl

@[simp] theorem append_cfg (b : Byte) (s : State) : (append b s).cfg = s.cfg := rfl
@[simp] theorem append_cand (b : Byte) (s : State) : (append b s).cand = s.cand ++ [b] := rfl
@[simp] theorem append_outValid (b : Byte) (s : State) : (append b s).outValid = s.outValid := rfl
@[simp] theorem append_inputs (b : Byte) (s : State) : (append b s).inputs = s.inputs := rfl
@[simp] theorem append_out (b : Byte) (s : State) : (append b s).out = s.out := rfl

@[simp] theorem putDigit_cfg (i : Fin 4) (gc : GlyphCode) (dp : Bool) (s : State) : (putDigit i gc dp s).cfg = s.cfg := rfl
@[simp] theorem putDigit_cand (i : Fin 4) (gc : GlyphCode) (dp : Bool) (s : State) : (putDigit i gc dp s).cand = s.cand := rfl
@[simp] theorem putDigit_outValid (i : Fin 4) (gc : GlyphCode) (dp : Bool) (s : State) : (putDigit i gc dp s).outValid = s.outValid := rfl
@[simp] theorem putDigit_inputs (i : Fin 4) (gc : GlyphCode) (dp : Bool) (s : State) : (putDigit i gc dp s).inputs = s.inputs := rfl
@[simp] theorem putDigit_out_digCode (i : Fin 4) (gc : GlyphCode) (dp : Bool) (s : State) : (putDigit i gc dp s).out.digCode = s.out.digCode.set i.val gc := rfl
@[simp] theorem putDigit_out_digDp (i : Fin 4) (gc : GlyphCode) (dp : Bool) (s : State) : (putDigit i gc dp s).out.digDp = s.out.digDp.set i.val dp := rfl
@[simp] theorem putDigit_out_numeric (i : Fin 4) (gc : GlyphCode) (dp : Bool) (s : State) : (putDigit i gc dp s).out.numeric = s.out.numeric := rfl
@[simp] theorem putDigit_out_mant (i : Fin 4) (gc : GlyphCode) (dp : Bool) (s : State) : (putDigit i gc dp s).out.mant = s.out.mant := rfl
@[simp] theorem putDigit_out_scale (i : Fin 4) (gc : GlyphCode) (dp : Bool) (s : State) : (putDigit i gc dp s).out.scale = s.out.scale := rfl
@[simp] theorem putDigit_out_lbl (i : Fin 4) (gc : GlyphCode) (dp : Bool) (s : State) : (putDigit i gc dp s).out.lbl = s.out.lbl := rfl
@[simp] theorem putDigit_out_ts (i : Fin 4) (gc : GlyphCode) (dp : Bool) (s : State) : (putDigit i gc dp s).out.ts = s.out.ts := rfl

@[simp] theorem putLabel_cfg (g : Fin 5) (lb : Byte) (s : State) : (putLabel g lb s).cfg = s.cfg := rfl
@[simp] theorem putLabel_cand (g : Fin 5) (lb : Byte) (s : State) : (putLabel g lb s).cand = s.cand := rfl
@[simp] theorem putLabel_outValid (g : Fin 5) (lb : Byte) (s : State) : (putLabel g lb s).outValid = s.outValid := rfl
@[simp] theorem putLabel_inputs (g : Fin 5) (lb : Byte) (s : State) : (putLabel g lb s).inputs = s.inputs := rfl
@[simp] theorem putLabel_out_digCode (g : Fin 5) (lb : Byte) (s : State) : (putLabel g lb s).out.digCode = s.out.digCode := rfl
@[simp] theorem putLabel_out_digDp (g : Fin 5) (lb : Byte) (s : State) : (putLabel g lb s).out.digDp = s.out.digDp := rfl
@[simp] theorem putLabel_out_numeric (g : Fin 5) (lb : Byte) (s : State) : (putLabel g lb s).out.numeric = s.out.numeric := rfl
@[simp] theorem putLabel_out_mant (g : Fin 5) (lb : Byte) (s : State) : (putLabel g lb s).out.mant = s.out.mant := rfl
@[simp] theorem putLabel_out_scale (g : Fin 5) (lb : Byte) (s : State) : (putLabel g lb s).out.scale = s.out.scale := rfl
@[simp] theorem putLabel_out_lbl (g : Fin 5) (lb : Byte) (s : State) : (putLabel g lb s).out.lbl = s.out.lbl.set g.val (lb &&& vmask s.cfg g) := rfl
@[simp] theorem putLabel_out_ts (g : Fin 5) (lb : Byte) (s : State) : (putLabel g lb s).out.ts = s.out.ts := rfl

@[simp] theorem classify_cfg (s : State) : (classify s).cfg = s.cfg := rfl
@[simp] theorem classify_cand (s : State) : (classify s).cand = s.cand := rfl
@[simp] theorem classify_outValid (s : State) : (classify s).outValid = s.outValid := rfl
@[simp] theorem classify_inputs (s : State) : (classify s).inputs = s.inputs := rfl
@[simp] theorem classify_out_digCode (s : State) : (classify s).out.digCode = s.out.digCode := rfl
@[simp] theorem classify_out_digDp (s : State) : (classify s).out.digDp = s.out.digDp := rfl
@[simp] theorem classify_out_numeric (s : State) : (classify s).out.numeric = numericOf s.out.digCode s.out.digDp := rfl
@[simp] theorem classify_out_mant (s : State) : (classify s).out.mant = if numericOf s.out.digCode s.out.digDp then BitVec.ofNat 14 (mantissaOf s.out.digCode) else 0 := rfl
@[simp] theorem classify_out_scale (s : State) : (classify s).out.scale = if numericOf s.out.digCode s.out.digDp then BitVec.ofNat 3 (scaleOf s.out.digCode s.out.digDp) else 0 := rfl
@[simp] theorem classify_out_lbl (s : State) : (classify s).out.lbl = s.out.lbl := rfl
@[simp] theorem classify_out_ts (s : State) : (classify s).out.ts = s.out.ts := rfl

@[simp] theorem present_cfg (s : State) : (present s).cfg = s.cfg := rfl
@[simp] theorem present_cand (s : State) : (present s).cand = s.cand := rfl
@[simp] theorem present_outValid (s : State) : (present s).outValid = true := rfl
@[simp] theorem present_inputs (s : State) : (present s).inputs = s.inputs := rfl
@[simp] theorem present_out_digCode (s : State) : (present s).out.digCode = s.out.digCode := rfl
@[simp] theorem present_out_digDp (s : State) : (present s).out.digDp = s.out.digDp := rfl
@[simp] theorem present_out_numeric (s : State) : (present s).out.numeric = s.out.numeric := rfl
@[simp] theorem present_out_mant (s : State) : (present s).out.mant = s.out.mant := rfl
@[simp] theorem present_out_scale (s : State) : (present s).out.scale = s.out.scale := rfl
@[simp] theorem present_out_lbl (s : State) : (present s).out.lbl = s.out.lbl := rfl
@[simp] theorem present_out_ts (s : State) : (present s).out.ts = sampleNow s.cfg (port s).now := rfl

@[simp] theorem beginEdge_cfg (s : State) : (beginEdge s).cfg = s.cfg := rfl
@[simp] theorem beginEdge_cand (s : State) : (beginEdge s).cand = s.cand := rfl
@[simp] theorem beginEdge_outValid (s : State) : (beginEdge s).outValid = false := rfl
@[simp] theorem beginEdge_inputs (s : State) : (beginEdge s).inputs = s.inputs := rfl
@[simp] theorem beginEdge_out (s : State) : (beginEdge s).out = s.out := rfl

@[simp] theorem resetEdge_cfg (s : State) : (resetEdge s).cfg = s.cfg := rfl
@[simp] theorem resetEdge_cand (s : State) : (resetEdge s).cand = [] := rfl
@[simp] theorem resetEdge_outValid (s : State) : (resetEdge s).outValid = false := rfl
@[simp] theorem resetEdge_inputs (s : State) : (resetEdge s).inputs = s.inputs := rfl
@[simp] theorem resetEdge_out (s : State) : (resetEdge s).out = Reading.zero := rfl

@[simp] theorem advance_cfg (s : State) : (advance s).cfg = s.cfg := rfl
@[simp] theorem advance_cand (s : State) : (advance s).cand = s.cand := rfl
@[simp] theorem advance_outValid (s : State) : (advance s).outValid = s.outValid := rfl
@[simp] theorem advance_inputs (s : State) : (advance s).inputs = s.inputs.tail := rfl
@[simp] theorem advance_out (s : State) : (advance s).out = s.out := rfl

@[simp] theorem resetWith_cfg (cfg : Config) (ps : List PortIn) : (State.resetWith cfg ps).cfg = cfg := rfl
@[simp] theorem resetWith_cand (cfg : Config) (ps : List PortIn) : (State.resetWith cfg ps).cand = [] := rfl
@[simp] theorem resetWith_outValid (cfg : Config) (ps : List PortIn) : (State.resetWith cfg ps).outValid = false := rfl
@[simp] theorem resetWith_out (cfg : Config) (ps : List PortIn) : (State.resetWith cfg ps).out = Reading.zero := rfl
@[simp] theorem resetWith_inputs (cfg : Config) (ps : List PortIn) : (State.resetWith cfg ps).inputs = ps := rfl

theorem putDigit_digCode_get (pos j : Fin 4) (gc : GlyphCode) (dp : Bool) (s : State) :
    (putDigit pos gc dp s).out.digCode.get j = if j = pos then gc else s.out.digCode.get j := get_set ..

theorem putDigit_digDp_get (pos j : Fin 4) (gc : GlyphCode) (dp : Bool) (s : State) :
    (putDigit pos gc dp s).out.digDp.get j = if j = pos then dp else s.out.digDp.get j := get_set ..

theorem putLabel_lbl_get (g h : Fin 5) (lb : Byte) (s : State) :
    (putLabel g lb s).out.lbl.get h = if h = g then lb &&& vmask s.cfg g else s.out.lbl.get h := get_set ..

/-- The ports depend on the inputs alone. -/
theorem port_congr (s t : State) (h : s.inputs = t.inputs) : port s = port t := by simp [port, h]

end Sys2Proof.Machine
end

