-- ==== Sys2Proof/Laws/Rows.lean ====
section
/-! SUPPORT. What the shared decoding operations do, said once: the digit lookup, the two decoders of a frame, and the
whole of Decode(F). -/

namespace Sys2Proof.Machine

/-- The digit lookup writes `ROM_DIG[code]` and the decimal point, whichever row the byte selects (R90). -/
theorem runDigit_eq (i : Fin 4) (db : Byte) (s : State) :
    runDigit i db s = putDigit i (romDig s.cfg (codeOf s.cfg db)) (dpOf s.cfg db) s := by
  unfold runDigit romDig
  cases h : romFind s.cfg (codeOf s.cfg db) with
  | none => simp [doDigNomatch]
  | some g =>
    cases g <;> simp [doDig0, doDig1, doDig2, doDig3, doDig4, doDig5, doDig6, doDig7, doDig8, doDig9, doDigL, doDigBlank,
      glyphCode]

theorem decodeDigits_eq (F : Frame) (s : State) :
    decodeDigits F s = { s with out := { s.out with
      digCode := Vector.ofFn (fun i => romDig s.cfg (codeOf s.cfg (digitByte s.cfg F i)))
      digDp := Vector.ofFn (fun i => dpOf s.cfg (digitByte s.cfg F i)) } } := by
  simp only [decodeDigits, runDigit_eq, putDigit_cfg]
  simp only [putDigit]
  congr 2
  · apply Vector.ext
    intro j hj
    simp only [Vector.getElem_set, Vector.getElem_ofFn]
    rcases j with _ | _ | _ | _ | j <;> first | rfl | omega
  · apply Vector.ext
    intro j hj
    simp only [Vector.getElem_set, Vector.getElem_ofFn]
    rcases j with _ | _ | _ | _ | j <;> first | rfl | omega

theorem decodeLabels_eq (F : Frame) (s : State) :
    decodeLabels F s = { s with out := { s.out with
      lbl := Vector.ofFn (fun g => labelByte s.cfg F g &&& vmask s.cfg g) } } := by
  simp only [decodeLabels, doLblG0, doLblG1, doLblG2, doLblG3, doLblG4, putLabel_cfg]
  simp only [putLabel]
  congr 2
  apply Vector.ext
  intro j hj
  simp only [Vector.getElem_set, Vector.getElem_ofFn]
  rcases j with _ | _ | _ | _ | _ | j <;> first | rfl | omega

/-- Decode(F) writes the whole reading of R125 and nothing else. -/
theorem decodeReading_eq (F : Frame) (s : State) :
    decodeReading F s = { s with outValid := true, out := readingOf s.cfg F (port s).now } := by
  unfold decodeReading
  rw [decodeDigits_eq, decodeLabels_eq]
  rfl

theorem validFrame_iff {cfg : Config} {F : Frame} :
    validFrame cfg F = true ↔ F.length = cfg.frameLen ∧ byteAt F 0 = cfg.hdr1 ∧ byteAt F 1 = cfg.hdr2 := by
  simp [validFrame, and_assoc]

/-- On a frame of full length the header view selects exactly what the validity condition says (R52, R85, R89). -/
theorem runValidator_eq {F : Frame} {s : State} (hl : F.length = s.cfg.frameLen) :
    runValidator F s = if validFrame s.cfg F then decodeReading F s else s := by
  unfold runValidator
  by_cases hv : validFrame s.cfg F = true
  · have h := validFrame_iff.mp hv
    rw [if_pos (headerOf_eq_iff.mpr h.2)]
    simp [doValAccept, hv]
  · rw [if_neg]
    · simp [doValReject, hv]
    · intro h
      exact hv (validFrame_iff.mpr ⟨hl, headerOf_eq_iff.mp h⟩)

end Sys2Proof.Machine
end

