-- ==== Sys2Proof/Laws/Step.lean ====
section
/-! SUPPORT. What the sub-operations, the synchronizer and one edge can do, said once. -/

namespace Sys2Proof.Machine

theorem overflow_of_lt {s : State} (h : s.cand.length < s.cfg.maxBuf) : overflow s = s := by
  simp [overflow, Nat.not_le.mpr h]

theorem overflow_of_le {s : State} (h : s.cfg.maxBuf ≤ s.cand.length) :
    overflow s = { s with cand := s.cand.dropLast } := by
  simp [overflow, h]

/-- Sub-operations 3 to 5 in full. -/
theorem finishStep_eq (s : State) :
    finishStep s =
      let kept := if s.cfg.maxBuf ≤ s.cand.length then s.cand.dropLast else s.cand
      if kept.length = s.cfg.frameLen then
        if validFrame s.cfg kept then
          { s with cand := [], outValid := true, out := readingOf s.cfg kept (port s).now }
        else { s with cand := [] }
      else { s with cand := kept } := by
  have key : ∀ (t : State), (match emit t with
      | (s', none) => s'
      | (s', some F) => runValidator F s') =
      if t.cand.length = t.cfg.frameLen then
        if validFrame t.cfg t.cand then
          { t with cand := [], outValid := true, out := readingOf t.cfg t.cand (port t).now }
        else { t with cand := [] }
      else t := by
    intro t
    unfold emit
    by_cases h : t.cand.length = t.cfg.frameLen
    · simp only [h, if_true]
      rw [runValidator_eq (by simpa using h)]
      by_cases hv : validFrame t.cfg t.cand = true
      · simp only [hv, if_true, decodeReading_eq]
        rfl
      · simp [hv]
    · simp [h]
  refine (show finishStep s = _ from key (overflow s)).trans ?_
  unfold overflow
  by_cases hm : s.cfg.maxBuf ≤ s.cand.length <;> simp [hm, port]

/-- A buffer that does not complete a frame is only stored. -/
theorem finishStep_of_lt {s : State} (h : s.cand.length < s.cfg.frameLen) : finishStep s = s := by
  have hm := s.cfg.frameLen_lt_maxBuf
  rw [finishStep_eq]
  simp only [show ¬ s.cfg.maxBuf ≤ s.cand.length by omega, if_false, show s.cand.length ≠ s.cfg.frameLen by omega]

/-- A buffer of exactly `FRAME_LEN` bytes is emitted, validated and decoded. -/
theorem finishStep_of_eq {s : State} (h : s.cand.length = s.cfg.frameLen) :
    finishStep s =
      if validFrame s.cfg s.cand then
        { s with cand := [], outValid := true, out := readingOf s.cfg s.cand (port s).now }
      else { s with cand := [] } := by
  have hm := s.cfg.frameLen_lt_maxBuf
  have hk : ¬ s.cfg.maxBuf ≤ s.cand.length := by omega
  rw [finishStep_eq]
  simp only [hk, if_false]
  simp only [h, if_true]

/-- The magic byte leaves the one-byte buffer and nothing else (R71). -/
theorem doSyncHdr_eq (s : State) : doSyncHdr s = { s with cand := [s.cfg.hdr1] } := by
  have h10 := s.cfg.ten_le_frameLen
  unfold doSyncHdr
  rw [finishStep_of_lt (by simp; omega)]
  simp [append, restart]

/-- `SYNC.DATA` in full (R72, R73, R74). -/
theorem doSyncData_eq (b : Byte) (s : State) :
    doSyncData b s =
      let kept := if s.cfg.maxBuf ≤ (s.cand ++ [b]).length then (s.cand ++ [b]).dropLast else s.cand ++ [b]
      if kept.length = s.cfg.frameLen then
        if validFrame s.cfg kept then
          { s with cand := [], outValid := true, out := readingOf s.cfg kept (port s).now }
        else { s with cand := [] }
      else { s with cand := kept } :=
  finishStep_eq (append b s)

/-- One accepted byte does what the transaction-level step says (R14, R70). -/
theorem exec_decodeByte (b : Byte) (s : State) :
    exec (decodeByte s.cfg b) s = .next
      (match transactionStep s.cfg s.cand b (port s).now with
        | (c, some r) => { s with cand := c, outValid := true, out := r }
        | (c, none) => { s with cand := c }) := by
  have h10 := s.cfg.ten_le_frameLen
  have hm := s.cfg.frameLen_lt_maxBuf
  unfold decodeByte transactionStep
  by_cases hb : b = s.cfg.hdr1
  · simp only [hb, if_true, exec, execSyncHdr, doSyncHdr_eq, List.nil_append, List.length_singleton]
    rw [if_neg (show ¬ s.cfg.maxBuf ≤ 1 by omega)]
    simp [show ¬ (1 = s.cfg.frameLen) by omega]
  · simp only [hb, if_false, exec, execSyncData, doSyncData_eq]
    by_cases hk : (if s.cfg.maxBuf ≤ (s.cand ++ [b]).length then (s.cand ++ [b]).dropLast
        else s.cand ++ [b]).length = s.cfg.frameLen
    · by_cases hv : validFrame s.cfg (if s.cfg.maxBuf ≤ (s.cand ++ [b]).length then (s.cand ++ [b]).dropLast
          else s.cand ++ [b]) = true
      · rw [if_pos hk, if_pos hv, if_pos hk, if_pos hv]
      · rw [if_pos hk, if_neg hv, if_pos hk, if_neg hv]
    · rw [if_neg hk, if_neg hk]

/-- One edge, in the transaction-level terms (R130, R131, R160). -/
theorem step_eq (s : State) :
    step s = .next
      (match edgeOf (port s) with
        | .reset => { s with cand := [], outValid := false, out := Reading.zero, inputs := s.inputs.tail }
        | .idle => { s with outValid := false, inputs := s.inputs.tail }
        | .byte b now =>
          match transactionStep s.cfg s.cand b now with
          | (c, some r) => { s with cand := c, outValid := true, out := r, inputs := s.inputs.tail }
          | (c, none) => { s with cand := c, outValid := false, inputs := s.inputs.tail }) := by
  unfold step
  cases he : edgeOf (port s) with
  | reset => rfl
  | idle => rfl
  | byte b now =>
    have hn : (port s).now = now := by
      unfold edgeOf at he
      split at he
      · cases he
      · split at he
        · cases he; rfl
        · cases he
    have hx := exec_decodeByte b (beginEdge s)
    have hp : port (beginEdge s) = port s := rfl
    simp only [beginEdge_cfg, beginEdge_cand, hp, hn] at hx
    simp only [hx]
    rcases transactionStep s.cfg s.cand b now with ⟨c, _ | r⟩ <;> rfl

/-- The row a digit byte selects does the digit lookup (R90). -/
theorem exec_decodeDigit (pos : Fin 4) (db : Byte) (s : State) :
    exec (decodeDigit s.cfg pos db) s =
      .next (putDigit pos (romDig s.cfg (codeOf s.cfg db)) (dpOf s.cfg db) s) := by
  rw [← runDigit_eq]
  unfold decodeDigit runDigit
  cases romFind s.cfg (codeOf s.cfg db) with
  | none => rfl
  | some g => cases g <;> rfl

/-- The row a label byte selects masks it into its group's register (R121). -/
theorem exec_decodeLabel (g : Fin 5) (lb : Byte) (s : State) :
    exec (decodeLabel g lb) s = .next (putLabel g lb s) := by
  fin_cases g <;> rfl

/-- Sub-operations 1 to 4 on a buffer within R23(a): the overflow drop never shows (R75). -/
theorem transactionStep_of_short {cfg : Config} {cand : List Byte} (b : Byte) (now : Nat)
    (h : cand.length ≤ cfg.frameLen - 1) :
    transactionStep cfg cand b now =
      if b = cfg.hdr1 then ([cfg.hdr1], none)
      else if cand.length + 1 = cfg.frameLen then
        ([], if validFrame cfg (cand ++ [b]) then some (readingOf cfg (cand ++ [b]) now) else none)
      else (cand ++ [b], none) := by
  have hm := cfg.frameLen_lt_maxBuf
  have h10 := cfg.ten_le_frameLen
  unfold transactionStep
  by_cases hb : b = cfg.hdr1
  · simp [hb, show ¬ cfg.maxBuf ≤ 1 by omega, show 1 ≠ cfg.frameLen by omega]
  · have : ¬ cfg.maxBuf ≤ cand.length + 1 := by omega
    simp [hb, this]

theorem edgeOf_byte {p : PortIn} (hr : p.rst = false) (hv : p.inValid = true) :
    edgeOf p = .byte p.inData p.now := by
  simp [edgeOf, hr, hv]

theorem edgeOf_reset {p : PortIn} (hr : p.rst = true) : edgeOf p = .reset := by simp [edgeOf, hr]

theorem edgeOf_idle {p : PortIn} (hr : p.rst = false) (hv : p.inValid = false) : edgeOf p = .idle := by
  simp [edgeOf, hr, hv]

theorem port_cons {s : State} {p : PortIn} {rest : List PortIn} (h : s.inputs = p :: rest) : port s = p := by
  simp [port, h]

/-- What an edge makes of the port values. -/
theorem edgeOf_eq (p : PortIn) :
    edgeOf p = if p.rst then .reset else if p.inValid then .byte p.inData p.now else .idle := rfl

end Sys2Proof.Machine
end

