-- ==== Sys2Proof/Laws/Runs.lean ====
section
/-! SUPPORT. Runs: one edge at a time, for the presented readings, for the host's run and for rows in sequence. -/

namespace Sys2Proof.Machine

theorem execRows_cons {row : Instr} {rest : List Instr} {s t : State} (h : exec row s = .next t) :
    execRows (row :: rest) s = execRows rest t := by
  simp [execRows, h]

theorem presented_succ {k : Nat} {s t : State} (h : step s = .next t) :
    presented (k + 1) s = (if t.outValid then [t.out] else []) ++ presented k t := by
  simp [presented, h]

theorem run_succ {k : Nat} {s t : State} (h : step s = .next t) :
    Host.Core.run core (k + 1) s = Host.Core.run core k t := by
  have h' : core.step s = .next t := h
  simp only [Host.Core.run, h']

theorem run_zero (s : State) : Host.Core.run core 0 s = .next s := rfl

/-- A run may be cut in two. -/
theorem run_add (j k : Nat) (s t : State) (h : Host.Core.run core j s = .next t) :
    Host.Core.run core (j + k) s = Host.Core.run core k t := by
  induction j generalizing s with
  | zero =>
    cases h
    rw [Nat.zero_add]
  | succ j ih =>
    obtain ⟨u, hu⟩ : ∃ u, step s = .next u := ⟨_, step_eq s⟩
    rw [Nat.add_right_comm, run_succ hu]
    rw [run_succ hu] at h
    exact ih u h

end Sys2Proof.Machine
end

