-- ==== Sys2Proof/Tests/Slice0.lean ====
section
/-! SUPPORT. The model's own tests. Expected values are those of spec/95_test_vectors.md (each test names its vector) or
are written out from the rule it names; the configuration is the test instance of D18 unless a test says otherwise. The
last part gives each statement with hypotheses a concrete case that meets them. -/

namespace Sys2Proof.Tests

open Sys2Proof Sys2Proof.Machine

/-! ### Helpers -/

/-- The test machine after reset, but for its buffer and the coming port values. -/
def st (cand : List Byte) (ps : List PortIn) : State := { State.resetWith Config.test ps with cand := cand }

/-- A byte offered with a timestamp. -/
def off (b : Byte) (now : Nat) : PortIn := { rst := false, inValid := true, inData := b, now := now }

/-- An edge without a byte. -/
def idle : PortIn := { rst := false, inValid := false, inData := 0, now := 0 }

/-- A reset edge that also offers a byte. -/
def rstOff (b : Byte) : PortIn := { rst := true, inValid := true, inData := b, now := 0 }

/-- The next state, if there is one. -/
def nextOf : Outcome → Option State
  | .next t => some t
  | .fault _ => none
  | .refused _ => none

/-- The check that refused a configuration, if one did. -/
def refusedBy : Except ConfigCheck Config → Option ConfigCheck
  | .ok _ => none
  | .error c => some c

/-- What the decoder reads under the test configuration. -/
def dec (slot : Slot) (bytes : List Byte) : Option Instr := (decode Config.test slot bytes).toOption

/-- 22 bytes: a header and one byte repeated. -/
def hdrFrame (h1 h2 fill : Byte) : Frame := h1 :: h2 :: List.replicate 20 fill

/-- The frame of V-SRC-6 (Scenario A). -/
def scenarioA : Frame :=
  [0xAA, 0x55, 0x00, 0x00, 0x00, 0x00, 0x5B, 0x06, 0x3F, 0x3F, 0x00, 0x01, 0x04, 0x00, 0x00, 0x00, 0x00, 0x00, 0x00,
    0x00, 0x00, 0x00]

/-! ### Ill-formed terms are refused -/

theorem test_wf_frame_len : refusedBy (Config.ofData { ConfigData.stated OpenParams.test with frameLen := 9 }) =
    some .wfFrameLen := by decide

/-- V-SYNC-OVF-3. -/
theorem test_wf_max_buf : refusedBy (Config.ofData { ConfigData.stated OpenParams.test with maxBuf := 22 }) =
    some .wfMaxBuf := by decide

/-- V-SYNC-OVF-2. -/
theorem test_max_buf_23_accepted : refusedBy (Config.ofData { ConfigData.stated OpenParams.test with maxBuf := 23 }) =
    none := by decide

theorem test_wf_digit_off :
    refusedBy (Config.ofData { ConfigData.stated OpenParams.test with digitOff := #v[9, 8, 7, 22] }) =
      some .wfDigitOff := by decide

theorem test_wf_label_off :
    refusedBy (Config.ofData (ConfigData.stated { OpenParams.test with labelOff := #v[10, 11, 12, 13, 22] })) =
      some .wfLabelOff := by decide

/-- Two glyphs with one code. -/
theorem test_wf_rom_distinct :
    refusedBy (Config.ofData (ConfigData.stated { OpenParams.test with
      digitRom := #v[0x3F, 0x06, 0x5B, 0x4F, 0x66, 0x6D, 0x7D, 0x07, 0x7F, 0x6F, 0x3F, 0x00] })) = some .wfRom := by
  decide

/-- A code of eight bits. -/
theorem test_wf_rom_width :
    refusedBy (Config.ofData (ConfigData.stated { OpenParams.test with
      digitRom := #v[0x3F, 0x06, 0x5B, 0x4F, 0x66, 0x6D, 0x7D, 0x07, 0x7F, 0x6F, 0x80, 0x00] })) = some .wfRom := by
  decide

theorem test_wf_vocab_groups :
    refusedBy (Config.ofData (ConfigData.stated { OpenParams.test with vocab := List.replicate 4 (List.replicate 8 none) })) =
      some .wfVocab := by decide

theorem test_wf_vocab_bits :
    refusedBy (Config.ofData (ConfigData.stated { OpenParams.test with vocab := List.replicate 5 (List.replicate 7 none) })) =
      some .wfVocab := by decide

/-- No bit pattern selects SYNC.DATA with `HDR1` (R50). -/
theorem test_wf_data_magic : (Instr.syncData 0xAA).wf Config.test = false := by decide

theorem test_wf_accept_short : (Instr.valAccept [0xAA, 0x55]).wf Config.test = false := by decide

theorem test_wf_accept_header : (Instr.valAccept (hdrFrame 0xAA 0x54 0)).wf Config.test = false := by decide

theorem test_wf_reject_header : (Instr.valReject (hdrFrame 0xAA 0x55 0)).wf Config.test = false := by decide

/-- 0x3F is the code of `0`, so DIG.NOMATCH never has it (R103). -/
theorem test_wf_nomatch_known : (Instr.digNomatch 0 false 0x3F).wf Config.test = false := by decide

/-- The decoder rejects by name what is no pattern of its slot. -/
theorem test_decode_rejects :
    decode Config.test .inByte [] = .error .notOneByte ∧
    decode Config.test (.digit 0) [0x3F, 0x06] = .error .notOneByte ∧
    decode Config.test .frame [0xAA, 0x55] = .error .notAFrame := by decide

/-! ### Words written out from the encodings -/

/-- R71: `10101010`. R72: any other byte. -/
theorem test_decode_sync :
    dec .inByte [0b10101010] = some .syncHdr ∧ dec .inByte [0b10101011] = some (.syncData 0xAB) ∧
    dec .inByte [0b01010101] = some (.syncData 0x55) := by decide

/-- R86: `1010101001010101`, `F[0]` in bits 15:8. R87: V-VAL-2, V-VAL-6 and the bytes swapped. -/
theorem test_decode_val :
    dec .frame (hdrFrame 0b10101010 0b01010101 0) = some (.valAccept (hdrFrame 0xAA 0x55 0)) ∧
    dec .frame (hdrFrame 0xAA 0x54 0) = some (.valReject (hdrFrame 0xAA 0x54 0)) ∧
    dec .frame (hdrFrame 0xAA 0x5D 0) = some (.valReject (hdrFrame 0xAA 0x5D 0)) ∧
    dec .frame (hdrFrame 0x55 0xAA 0) = some (.valReject (hdrFrame 0x55 0xAA 0)) := by decide

/-- V-DIG-1 to V-DIG-8: `Dccccccc` with TEST_ROM's codes. -/
theorem test_decode_dig_0_4 :
    dec (.digit 0) [0b00111111] = some (.dig0 0 false) ∧ dec (.digit 0) [0b10111111] = some (.dig0 0 true) ∧
    dec (.digit 1) [0b00000110] = some (.dig1 1 false) ∧ dec (.digit 1) [0b10000110] = some (.dig1 1 true) ∧
    dec (.digit 2) [0b01011011] = some (.dig2 2 false) ∧ dec (.digit 2) [0b11011011] = some (.dig2 2 true) ∧
    dec (.digit 3) [0b01001111] = some (.dig3 3 false) ∧ dec (.digit 3) [0b01100110] = some (.dig4 3 false) := by decide

/-- V-DIG-9 to V-DIG-14. -/
theorem test_decode_dig_5_9 :
    dec (.digit 0) [0b01101101] = some (.dig5 0 false) ∧ dec (.digit 1) [0b01111101] = some (.dig6 1 false) ∧
    dec (.digit 2) [0b00000111] = some (.dig7 2 false) ∧ dec (.digit 3) [0b01111111] = some (.dig8 3 false) ∧
    dec (.digit 0) [0b01101111] = some (.dig9 0 false) ∧ dec (.digit 0) [0b11101111] = some (.dig9 0 true) := by decide

/-- V-DIG-15 to V-DIG-22. -/
theorem test_decode_dig_other :
    dec (.digit 0) [0b00111000] = some (.digL 0 false) ∧ dec (.digit 0) [0b10111000] = some (.digL 0 true) ∧
    dec (.digit 1) [0b00000000] = some (.digBlank 1 false) ∧ dec (.digit 1) [0b10000000] = some (.digBlank 1 true) ∧
    dec (.digit 2) [0b00000001] = some (.digNomatch 2 false 0x01) ∧
    dec (.digit 2) [0b10000001] = some (.digNomatch 2 true 0x01) ∧
    dec (.digit 3) [0b00101010] = some (.digNomatch 3 false 0x2A) := by decide

/-- R116 to R120: `bbbbbbbb`, the group alone selects the row. -/
theorem test_decode_lbl :
    dec (.label 0) [0b10000001] = some (.lblG0 0x81) ∧ dec (.label 1) [0b00000001] = some (.lblG1 0x01) ∧
    dec (.label 2) [0b00010010] = some (.lblG2 0x12) ∧ dec (.label 3) [0b00000110] = some (.lblG3 0x06) ∧
    dec (.label 4) [0b11111111] = some (.lblG4 0xFF) := by decide

/-- The table's own numbering, on this hardware's configuration: 0xAA and 0xAA55 are the matches of the table. -/
theorem test_table_words :
    decodeTableWord 8 0xAA = some .syncHdr ∧ decodeTableWord 8 0x00 = some (.syncData 0x00) ∧
    decodeTableWord 16 0xAA55 = some (.valAccept (hdrFrame 0xAA 0x55 0)) ∧
    decodeTableWord 16 0x0000 = some (.valReject (hdrFrame 0x00 0x00 0)) ∧ decodeTableWord 24 0 = none := by decide

/-- From reset, the placed byte is the very next thing that runs: SYNC.HDR leaves `[AA]`, SYNC.DATA `[11]`. -/
theorem test_fetch_byte :
    (nextOf (step (State.reset.withFetchWord 8 0xAA))).map (·.cand) = some [0xAA] ∧
    (nextOf (step (State.reset.withFetchWord 8 0x11))).map (·.cand) = some [0x11] := by decide

/-- From reset, the placed header is that of the frame the next step emits: AA 55 gives a reading, another header none. -/
theorem test_fetch_header :
    (nextOf (step (State.reset.withFetchWord 16 0xAA55))).map (·.outValid) = some true ∧
    (nextOf (step (State.reset.withFetchWord 16 0xAA54))).map (fun t => (t.cand, t.outValid)) = some ([], false) := by
  decide

/-! ### The synchronizer (V-SYNC) -/

/-- V-SYNC-2, V-SYNC-3, V-SYNC-4. -/
theorem test_sync_hdr :
    (nextOf (exec .syncHdr (st [] []))).map (·.cand) = some [0xAA] ∧
    (nextOf (exec .syncHdr (st [0xAA] []))).map (·.cand) = some [0xAA] ∧
    (nextOf (exec .syncHdr (st [0x11, 0x22] []))).map (·.cand) = some [0xAA] := by decide

/-- V-SYNC-6: the 21 bytes are lost, and no reading comes. -/
theorem test_sync_hdr_at_21 :
    (nextOf (exec .syncHdr (st (scenarioA.dropLast) []))).map (fun t => (t.cand, t.outValid)) = some ([0xAA], false) := by
  decide

/-- V-SYNC-1, V-SYNC-7, V-SYNC-11. -/
theorem test_sync_data :
    (nextOf (exec (.syncData 0x11) (st [] []))).map (·.cand) = some [0x11] ∧
    (nextOf (exec (.syncData 0x55) (st [0xAA] []))).map (·.cand) = some [0xAA, 0x55] ∧
    (nextOf (exec (.syncData 0x22) (st (List.replicate 20 0x11) []))).map (·.cand) =
      some (List.replicate 20 0x11 ++ [0x22]) := by decide

/-- V-SYNC-5 and V-SYNC-8: the completing byte empties the buffer; only the frame with the header gives a reading. -/
theorem test_sync_emit :
    (nextOf (exec (.syncData 0) (st (hdrFrame 0xAA 0x55 0).dropLast []))).map (fun t => (t.cand, t.outValid)) =
      some ([], true) ∧
    (nextOf (exec (.syncData 0) (st (List.replicate 21 0) []))).map (fun t => (t.cand, t.outValid)) =
      some ([], false) := by decide

/-! ### The validator (V-VAL) -/

/-- V-VAL-4: 20 bytes `FF` decode to `{8,8,8,8; 1,1,1,1; 0, 0, 0; 07 0F 1F 0F 07}`. -/
theorem test_val_accept :
    (nextOf (exec (.valAccept (hdrFrame 0xAA 0x55 0xFF)) (st [] []))).map (fun t => (t.outValid, t.out)) =
      some (true,
        { digCode := #v[8, 8, 8, 8], digDp := #v[true, true, true, true], numeric := false, mant := 0, scale := 0,
          lbl := #v[0x07, 0x0F, 0x1F, 0x0F, 0x07], ts := 0 }) := by decide

/-- V-VAL-5: rejected, nothing changes. -/
theorem test_val_reject :
    nextOf (exec (.valReject (hdrFrame 0x55 0x55 0)) (st [0x11] [])) = some (st [0x11] []) := by decide

/-! ### The digit decoder (V-DIG, V-NUM) -/

/-- What a digit operation leaves in the digit registers of the test machine. -/
def digitsAfter (i : Instr) : Option (Vector GlyphCode 4 × Vector Bool 4) :=
  (nextOf (exec i (st [] []))).map (fun t => (t.out.digCode, t.out.digDp))

/-- V-DIG-2 to V-DIG-9: the glyph codes of `0` to `5`, each at one position. -/
theorem test_dig_0_5 :
    digitsAfter (.dig0 0 true) = some (#v[0, 0, 0, 0], #v[true, false, false, false]) ∧
    digitsAfter (.dig1 1 false) = some (#v[0, 1, 0, 0], #v[false, false, false, false]) ∧
    digitsAfter (.dig2 2 true) = some (#v[0, 0, 2, 0], #v[false, false, true, false]) ∧
    digitsAfter (.dig3 3 false) = some (#v[0, 0, 0, 3], #v[false, false, false, false]) ∧
    digitsAfter (.dig4 0 false) = some (#v[4, 0, 0, 0], #v[false, false, false, false]) ∧
    digitsAfter (.dig5 1 false) = some (#v[0, 5, 0, 0], #v[false, false, false, false]) := by decide

/-- V-DIG-10 to V-DIG-20. -/
theorem test_dig_6_nomatch :
    digitsAfter (.dig6 2 false) = some (#v[0, 0, 6, 0], #v[false, false, false, false]) ∧
    digitsAfter (.dig7 3 false) = some (#v[0, 0, 0, 7], #v[false, false, false, false]) ∧
    digitsAfter (.dig8 0 true) = some (#v[8, 0, 0, 0], #v[true, false, false, false]) ∧
    digitsAfter (.dig9 1 true) = some (#v[0, 9, 0, 0], #v[false, true, false, false]) ∧
    digitsAfter (.digL 2 true) = some (#v[0, 0, 0xA, 0], #v[false, false, true, false]) ∧
    digitsAfter (.digBlank 3 false) = some (#v[0, 0, 0, 0xB], #v[false, false, false, false]) ∧
    digitsAfter (.digNomatch 0 true 0x01) = some (#v[0xF, 0, 0, 0], #v[true, false, false, false]) := by decide

/-- The test configuration with the policy BLANK. -/
def blankPolicy : Config := ⟨{ ConfigData.stated OpenParams.test with unknownDigit := .blank }, by decide⟩

/-- V-DIG-20 under BLANK: 0xB. -/
theorem test_dig_nomatch_blank :
    (nextOf (exec (.digNomatch 0 true 0x01) (State.resetWith blankPolicy []))).map (·.out.digCode.get 0) =
      some 0xB := by decide

/-- What R104 to R106 make of four glyph codes and four points. -/
def valueFields (gc : Vector GlyphCode 4) (dp : Vector Bool 4) : Text × Bool × Nat × Nat :=
  (digitString gc dp, numericOf gc dp, mantissaOf gc, scaleOf gc dp)

/-- V-NUM-1 to V-NUM-4, V-NUM-6. -/
theorem test_num_values :
    valueFields #v[0, 0, 1, 2] #v[false, false, false, false] = (['0', '0', '1', '2'], true, 12, 0) ∧
    valueFields #v[1, 2, 3, 4] #v[true, false, false, false] = (['.', '1', '2', '3', '4'], true, 1234, 4) ∧
    valueFields #v[1, 2, 3, 4] #v[false, true, false, false] = (['1', '.', '2', '3', '4'], true, 1234, 3) ∧
    valueFields #v[0xB, 0, 1, 2] #v[false, true, false, false] = (['.', '0', '1', '2'], true, 12, 3) ∧
    valueFields #v[1, 2, 3, 0xB] #v[false, false, false, true] = (['1', '2', '3', '.'], true, 123, 0) := by decide

/-- V-NUM-16: a point on a blank. V-NUM-19: an inner blank closes up. -/
theorem test_num_blanks :
    valueFields #v[0xB, 1, 0xB, 2] #v[false, false, true, false] = (['1', '.', '2'], true, 12, 1) ∧
    valueFields #v[0xB, 1, 0xB, 2] #v[false, false, false, false] = (['1', '2'], true, 12, 0) := by decide

/-- V-NUM-8 to V-NUM-12, V-NUM-18. -/
theorem test_num_fallbacks :
    numericOf #v[0xB, 0xB, 0xB, 0xB] #v[false, false, false, false] = false ∧
    numericOf #v[0xB, 0xB, 0xB, 0xB] #v[true, false, false, false] = false ∧
    numericOf #v[0xA, 0, 0, 0] #v[false, false, false, false] = false ∧
    numericOf #v[1, 2, 3, 4] #v[false, true, true, false] = false ∧
    digitString #v[1, 2, 3, 4] #v[false, true, true, false] = ['1', '.', '2', '.', '3', '4'] ∧
    numericOf #v[1, 2, 0xF, 4] #v[false, false, false, false] = false ∧
    digitString #v[1, 2, 0xF, 4] #v[false, false, false, false] = ['1', '2', '?', '4'] ∧
    digitString #v[1, 2, 3, 0xA] #v[false, false, false, true] = ['1', '2', '3', '.', 'L'] := by decide

/-! ### The label decoder (V-LBL) -/

/-- The label registers after a label operation. -/
def labelsAfter (i : Instr) : Option (Vector Byte 5) := (nextOf (exec i (st [] []))).map (·.out.lbl)

/-- V-LBL-4, V-LBL-7, V-LBL-9, V-LBL-6, V-LBL-5. -/
theorem test_lbl_rows :
    labelsAfter (.lblG0 0x81) = some #v[0x01, 0, 0, 0, 0] ∧ labelsAfter (.lblG1 0x03) = some #v[0, 0x03, 0, 0, 0] ∧
    labelsAfter (.lblG2 0xFF) = some #v[0, 0, 0x1F, 0, 0] ∧ labelsAfter (.lblG3 0x06) = some #v[0, 0, 0, 0x06, 0] ∧
    labelsAfter (.lblG4 0xFF) = some #v[0, 0, 0, 0, 0x07] := by decide

/-- V-LBL-11: `degC V DC Auto `. -/
theorem test_lbl_string :
    labelString Config.test #v[0x01, 0x01, 0x04, 0x02, 0x00] =
      ['d', 'e', 'g', 'C', ' ', 'V', ' ', 'D', 'C', ' ', 'A', 'u', 't', 'o', ' '] := by decide

/-! ### Output, ports and reset (V-OUT, V-RST) -/

/-- V-SRC-6 and V-OUT-1: the edge that accepts byte 22, with `now = 100`. -/
theorem test_out_reading :
    (nextOf (step (st scenarioA.dropLast [off 0x00 100, idle]))).map (fun t => (t.outValid, t.out)) =
      some (true,
        { digCode := #v[0, 0, 1, 2], digDp := #v[false, false, false, false], numeric := true, mant := 12, scale := 0,
          lbl := #v[0x00, 0x01, 0x04, 0x00, 0x00], ts := 100 }) := by decide

/-- V-OUT-1, the edge after: `out_valid` falls, and the fields keep the reading. -/
theorem test_out_pulse_falls :
    (nextOf (step { st [] [idle] with outValid := true, out := { Reading.zero with mant := 12, ts := 100 } })).map
      (fun t => (t.outValid, t.out.mant, t.out.ts)) = some (false, 12, 100) := by decide

/-- V-RST-2: the byte offered at the reset edge is not accepted. -/
theorem test_reset_wins : nextOf (step (st [0x11] [rstOff 0x22])) = some (st [] []) := by decide

/-- V-SRC-8: reset at the completing edge gives no reading. -/
theorem test_reset_at_completion :
    (nextOf (step (st scenarioA.dropLast [rstOff 0x00]))).map (fun t => (t.cand, t.outValid)) = some ([], false) := by
  decide

/-- V-RST-1. -/
theorem test_reset_values : (State.reset.cand, State.reset.outValid, State.reset.out) = ([], false, Reading.zero) := rfl

/-- R127 and R129: `now` goes through `TS_W = 32` wires. -/
theorem test_timestamp_width :
    (nextOf (step (st scenarioA.dropLast [off 0x00 (2 ^ 32 + 9)]))).map (·.out.ts) = some 9 := by decide

/-- The digits of P1 as the stream notation writes them. -/
def digitsP1 : Vector DigitItem 4 :=
  #v[⟨false, .glyph .d0⟩, ⟨false, .glyph .d0⟩, ⟨false, .glyph .d1⟩, ⟨false, .glyph .d2⟩]

/-- P1: `FRAME(0 0 1 2 ; 00 01 04 00 00)` expands to the bytes of V-SRC-6. -/
theorem test_frame_expansion :
    expandFrame Config.test digitsP1 #v[0x00, 0x01, 0x04, 0x00, 0x00] 0x00 = some scenarioA := by decide

/-- V-HAZ-1: `FRAME` refuses to write an `AA` after the first byte. -/
theorem test_frame_refuses_magic :
    expandFrame Config.test digitsP1 #v[0xAA, 0x01, 0x04, 0x00, 0x00] 0x00 = none := by decide

/-! ### Concrete cases that meet the hypotheses of each statement that has some -/

/-- The buffer in the middle of V-SRC-6: 21 bytes, one short of a frame. -/
def almost : List Byte := scenarioA.dropLast

theorem stated_test : Config.test.IsStated := rfl

theorem inv_st (c : List Byte) (ps : List PortIn) (h1 : c.length ≤ 21) (h2 : 0xAA ∉ c.tail) : Inv (st c ps) where
  short := h1
  magicFirst := h2
  pulseEmpty := fun h => nomatch h
  legal := by
    change ∀ i, legalCode (Reading.zero.digCode.get i) = true
    decide
  range := by
    change Reading.zero.mant.toNat ≤ 9999 ∧ Reading.zero.scale.toNat ≤ 4
    decide
  zeroed := fun _ => ⟨rfl, rfl⟩
  numericBit := fun h => nomatch h
  masked := by
    change ∀ g, Reading.zero.lbl.get g &&& vmask Config.test g = Reading.zero.lbl.get g
    decide
  stamp := by
    change 0 < 2 ^ 32
    decide

/-- A state that presents the reading of V-SRC-6. -/
def presenting : State := { st [] [off 0x11 5] with outValid := true, out := readingOf Config.test scenarioA 100 }

theorem inv_presenting : Inv presenting where
  short := by decide
  magicFirst := by decide
  pulseEmpty := by decide
  legal := by decide
  range := by decide
  zeroed := by decide
  numericBit := by decide
  masked := by decide
  stamp := by decide

theorem witness_DecodeOfEncodeIsSameRow :
    (Instr.syncData 0xFF).wf Config.test = true ∧ (Instr.valAccept scenarioA).wf Config.test = true ∧
    (Instr.valReject (hdrFrame 0xAA 0x54 0)).wf Config.test = true ∧
    (Instr.digNomatch 3 true 0x7E).wf Config.test = true ∧ (Instr.lblG4 0xFF).wf Config.test = true := by decide

theorem witness_EncodeOfDecodeIsSameBytes :
    decode Config.test .frame scenarioA = .ok (.valAccept scenarioA) ∧
    decode Config.test (.digit 3) [0xFF] = .ok (.dig8 3 true) ∧ decode Config.test (.label 4) [0x00] = .ok (.lblG4 0) := by
  decide

theorem witness_InputByteSelectsSyncRow : Config.test.IsStated := rfl

theorem witness_HeaderViewSelectsValidatorRow : Config.test.IsStated ∧ scenarioA.length = 22 := ⟨rfl, rfl⟩

/-- A byte to append, a byte that completes a valid frame, and one that completes an invalid one. -/
theorem witness_SyncDataAppendsOrCompletesFrame :
    ((st (almost.dropLast) []).cand.length < 22 ∧ (st (almost.dropLast) []).cand.length + 1 < 22) ∧
    ((st almost []).cand.length < 22 ∧ ¬ (st almost []).cand.length + 1 < 22 ∧
      validFrame Config.test ((st almost []).cand ++ [0x00]) = true) ∧
    ((st (List.replicate 21 0) []).cand.length < 22 ∧
      validFrame Config.test ((st (List.replicate 21 0) []).cand ++ [0x00]) = false) := by decide

/-- The overflow drop acts (a state past R23(a)), does not act, and cannot act within R23(a). -/
theorem witness_OverflowDropsNewestByte :
    (st (List.replicate 79 0) []).cfg.maxBuf ≤ (st (List.replicate 79 0) []).cand.length + 1 ∧
    ¬ (st (List.replicate 78 0) []).cfg.maxBuf ≤ (st (List.replicate 78 0) []).cand.length + 1 ∧
    (st almost []).cand.length ≤ (st almost []).cfg.frameLen - 1 := by decide

theorem witness_EmitHandsOverWholeBuffer :
    ∃ t, (0x00 : Byte) ≠ (st almost []).cfg.hdr1 ∧ (st almost []).cand.length ≤ (st almost []).cfg.frameLen - 1 ∧
      emit (overflow (append 0x00 (st almost []))) = (t, some scenarioA) := ⟨_, by decide, by decide, rfl⟩

/-- The test configuration with the least `MAX_BUF` (V-SYNC-OVF-2). -/
def leastBuf : Config := ⟨{ ConfigData.stated OpenParams.test with maxBuf := 23 }, by decide⟩

/-- A byte that is only appended, one that completes a frame, one that is dropped, and, at the least `MAX_BUF` and past
R23(a), one whose drop leaves a frame. -/
theorem witness_SyncDataRunsSelectedValidatorRow :
    (0x55 : Byte) ≠ (st almost []).cfg.hdr1 ∧
    ¬ (st almost.dropLast []).cfg.maxBuf ≤ (st almost.dropLast []).cand.length + 1 ∧
    ((st almost.dropLast []).cand ++ [0x55]).length ≠ (st almost.dropLast []).cfg.frameLen ∧
    ((st almost []).cand ++ [0x55]).length = (st almost []).cfg.frameLen ∧
    (st (List.replicate 79 0) []).cfg.maxBuf ≤ (st (List.replicate 79 0) []).cand.length + 1 ∧
    leastBuf.maxBuf ≤ scenarioA.length + 1 ∧ scenarioA.length = leastBuf.frameLen := by decide

/-- An empty buffer, one byte short of the last, and the completing byte. -/
theorem witness_DataByteIsAppendedOrEmitted :
    (0x00 : Byte) ≠ Config.test.hdr1 ∧ (st [] []).cand.length + 1 ≠ (st [] []).cfg.frameLen ∧
    (st almost.dropLast []).cand.length + 1 ≠ (st almost.dropLast []).cfg.frameLen ∧
    (st almost []).cand.length ≤ (st almost []).cfg.frameLen - 1 ∧
    (st almost []).cand.length + 1 = (st almost []).cfg.frameLen := by decide

/-- V-VAL-2. -/
theorem witness_ValRejectLeavesNoTrace :
    (hdrFrame 0xAA 0x54 0).length = (st [] []).cfg.frameLen ∧ validFrame (st [] []).cfg (hdrFrame 0xAA 0x54 0) = false := by
  decide

/-- Bit 7 of group 0 has no fragment. -/
theorem witness_LabelRowsWriteMaskedByte : fragment (st [] []).cfg 0 7 = none := by decide

theorem witness_EmittedFrameHasMagicOnlyFirst :
    ∃ t, Inv (st almost []) ∧ (0x00 : Byte) ≠ (st almost []).cfg.hdr1 ∧
      emit (overflow (append 0x00 (st almost []))) = (t, some scenarioA) :=
  ⟨_, inv_st _ _ (by decide) (by decide), by decide, rfl⟩

/-- A restart, a first byte, a byte in the middle and the completing byte. -/
theorem witness_SequencingTableOfPhases :
    (∃ t, step (st almost [off 0xAA 0]) = .next t ∧ phaseOf t.cand = .filling 1) ∧
    (∃ t, step (st [] [off 0x11 0]) = .next t ∧ phaseOf t.cand = .filling 1) ∧
    (∃ t, step (st almost.dropLast [off 0x00 0]) = .next t ∧ phaseOf t.cand = .filling 21) ∧
    (∃ t, step (st almost [off 0x00 0]) = .next t ∧ phaseOf t.cand = .empty) ∧
    (off 0x00 0).rst = false ∧ (off 0x00 0).inValid = true ∧
    (st almost []).cand.length ≤ (st almost []).cfg.frameLen - 1 :=
  ⟨⟨_, rfl, by decide⟩, ⟨_, rfl, by decide⟩, ⟨_, rfl, by decide⟩, ⟨_, rfl, by decide⟩, rfl, rfl, by decide⟩

theorem witness_RestartForgetsCandidate :
    (st almost [off 0xAA 7]).inputs = [off 0xAA 7] ∧ (off 0xAA 7).rst = false ∧ (off 0xAA 7).inValid = true ∧
    (off 0xAA 7).inData = (st almost [off 0xAA 7]).cfg.hdr1 := by decide

theorem witness_ValAcceptFormsOneReading :
    scenarioA.length = (st [] []).cfg.frameLen ∧ byteAt scenarioA 0 = (st [] []).cfg.hdr1 ∧
    byteAt scenarioA 1 = (st [] []).cfg.hdr2 := by decide

theorem witness_ValAcceptRunsDecodedRows : validFrame (st [] []).cfg scenarioA = true := by decide

/-- Every glyph has a byte, with its point clear and with it set. -/
theorem witness_DigitRowsWriteGlyphCode :
    ∀ (g : Glyph) (dp : Bool), (codeOf Config.test (glyphByte Config.test dp g)).setWidth 8 = romCode Config.test g ∧
      dpOf Config.test (glyphByte Config.test dp g) = dp := by
  intro g dp
  cases g <;> cases dp <;> decide

theorem witness_LetterAndBlankRowsWriteGlyphCode :
    (codeOf Config.test 0xB8).setWidth 8 = romCode Config.test .letterL ∧
    (codeOf Config.test 0x80).setWidth 8 = romCode Config.test .blank ∧
    (#v[0, 0, 0, 0xA] : Vector GlyphCode 4).get 3 = 0xA := by decide

theorem witness_NomatchRowFollowsPolicy :
    romFind Config.test (codeOf Config.test 0x81) = none ∧ (st [] []).cfg.unknownDigit = .noMatch ∧
    (State.resetWith blankPolicy []).cfg.unknownDigit = .blank ∧
    (#v[0xF, 0, 0, 0] : Vector GlyphCode 4).get 0 = 0xF := by decide

theorem witness_nomatch_byte : ∀ g : Glyph, (codeOf Config.test 0x81).setWidth 8 ≠ romCode Config.test g := by
  intro g
  cases g <;> decide

theorem witness_DigitLookupWritesRomEntry : (st [] []).cfg.IsStated := rfl

theorem witness_DigitByteFieldsOfFrame : Config.test.IsStated := rfl

theorem witness_RomHoldsTwelveGlyphs : ∀ g : Glyph, romCode Config.test g ≠ (0x2A : Code7).setWidth 8 := by
  intro g
  cases g <;> decide

/-- A numeric and a fallback string, over legal codes, with a NOMATCH among them. -/
theorem witness_DigitStringParsesToMantissaAndScale :
    (∀ i, legalCode ((#v[0xB, 1, 0xB, 2] : Vector GlyphCode 4).get i) = true) ∧
    numericOf #v[0xB, 1, 0xB, 2] #v[false, false, true, false] = true ∧
    (∀ i, legalCode ((#v[0xF, 0, 1, 2] : Vector GlyphCode 4).get i) = true) ∧
    numericOf #v[0xF, 0, 1, 2] #v[false, false, false, false] = false := by decide

/-- Two frames with the same digits and other labels. -/
theorem witness_DigitFieldsDependOnDigitBytesOnly :
    ∃ t t', validFrame Config.test scenarioA = true ∧ validFrame Config.test (scenarioA.set 11 0x03) = true ∧
      scenarioA ≠ scenarioA.set 11 0x03 ∧
      (∀ i, digitByte Config.test scenarioA i = digitByte Config.test (scenarioA.set 11 0x03) i) ∧
      exec (.valAccept scenarioA) (st [] []) = .next t ∧
      exec (.valAccept (scenarioA.set 11 0x03)) (st [0x11] [off 0 9]) = .next t' :=
  ⟨_, _, by decide, by decide, by decide, by decide, rfl, rfl⟩

/-- Two frames with the same labels and other digits. -/
theorem witness_LabelsDependOnLabelBytesOnly :
    ∃ t t', validFrame Config.test scenarioA = true ∧ validFrame Config.test (scenarioA.set 9 0x38) = true ∧
      scenarioA ≠ scenarioA.set 9 0x38 ∧
      (∀ g, labelByte Config.test scenarioA g = labelByte Config.test (scenarioA.set 9 0x38) g) ∧
      exec (.valAccept scenarioA) (st [] []) = .next t ∧
      exec (.valAccept (scenarioA.set 9 0x38)) (st [0x11] [off 0 9]) = .next t' :=
  ⟨_, _, by decide, by decide, by decide, by decide, rfl, rfl⟩

theorem witness_LabelStringConcatenatesGroups : ∀ g, (#v[0, 0, 0, 0, 0] : Vector Byte 5).get g = 0 := by decide

/-- The first and the last unassigned offset of the test configuration. -/
theorem witness_UnassignedBytesAreIgnored :
    ((∀ i, (st [] []).cfg.digitOff.get i ≠ 2) ∧ ∀ g, (st [] []).cfg.labelOff.get g ≠ 2) ∧
    ((∀ i, (st [] []).cfg.digitOff.get i ≠ 21) ∧ ∀ g, (st [] []).cfg.labelOff.get g ≠ 21) := by decide

theorem witness_StepRunsTheDecodedByte :
    (st almost [off 0x55 3]).inputs = [off 0x55 3] ∧ (off 0x55 3).rst = false ∧ (off 0x55 3).inValid = true ∧
    decode (st almost [off 0x55 3]).cfg .inByte [(off 0x55 3).inData] = .ok (.syncData 0x55) := by decide

theorem witness_ConfigurationIsNeverWritten :
    (∃ t, exec (.valAccept scenarioA) (st [] []) = .next t) ∧ ∃ t, step (st almost [off 0 1]) = .next t :=
  ⟨⟨_, rfl⟩, ⟨_, rfl⟩⟩

/-- A frame row, a digit row and a label row. -/
theorem witness_RowsChangeOnlyTheirRegisters :
    (∃ t, exec (.valAccept scenarioA) (st [0x11] []) = .next t ∧ (Instr.valAccept scenarioA).slot ≠ .inByte) ∧
    (∃ t, exec (.digNomatch 3 true 0x01) (st [] []) = .next t ∧ (Instr.digNomatch 3 true 0x01).slot = .digit 3) ∧
    (∃ t, exec (.lblG4 0xFF) (st [] []) = .next t ∧ (Instr.lblG4 0xFF).slot = .label 4) :=
  ⟨⟨_, rfl, by decide⟩, ⟨_, rfl, rfl⟩, ⟨_, rfl, rfl⟩⟩

theorem witness_EveryStepKeepsInvariant :
    (∃ t, Inv (st almost [off 0 1]) ∧ step (st almost [off 0 1]) = .next t) ∧
    ∃ t, Inv presenting ∧ step presenting = .next t :=
  ⟨⟨_, inv_st _ _ (by decide) (by decide), rfl⟩, ⟨_, inv_presenting, rfl⟩⟩

/-- An edge that completes a valid frame, and one that does not. -/
theorem witness_ReadingPresentedExactlyOnCompletion :
    (∃ t, step (st almost [off 0 1]) = .next t ∧ (st almost []).cand.length ≤ (st almost []).cfg.frameLen - 1 ∧
      (off 0 1).rst = false ∧ (off 0 1).inData ≠ (st almost []).cfg.hdr1 ∧
      validFrame (st almost []).cfg ((st almost []).cand ++ [(off 0 1).inData]) = true) ∧
    ∃ t, step (st (List.replicate 21 0) [off 0 1]) = .next t ∧
      validFrame (st [] []).cfg ((st (List.replicate 21 0) []).cand ++ [(off 0 1).inData]) = false :=
  ⟨⟨_, rfl, by decide, by decide, by decide, by decide⟩, ⟨_, rfl, by decide⟩⟩

theorem witness_ResetEdgeFromAnyContents :
    (st almost [rstOff 0]).inputs = [rstOff 0] ∧ (rstOff 0).rst = true := by decide

theorem witness_ResetMidFrameDiscardsCandidate :
    (st almost [rstOff 0]).inputs = [rstOff 0] ∧ (rstOff 0).rst = true ∧ (st almost [rstOff 0]).cand ≠ [] := by decide

/-- An idle edge on the ports, and an environment that offers nothing. -/
theorem witness_IdleEdgeKeepsCandidate :
    ((st almost [idle]).inputs = [idle] ∧ idle.rst = false ∧ idle.inValid = false) ∧ (st almost []).inputs = [] := by
  decide

theorem witness_ConfigurationChecksRefuseByName :
    refusedBy (Config.ofData (ConfigData.stated OpenParams.test)) = none ∧
    refusedBy (Config.ofData { ConfigData.stated OpenParams.test with maxBuf := 22 }) = some .wfMaxBuf := by decide

/-- V-OUT-2: an idle edge in the frame, and noise before it. -/
theorem witness_CleanFrameIsAlwaysDelivered :
    let ps := off 0xAA 1 :: idle :: (scenarioA.tail.dropLast).map (fun b => off b 5)
    (∀ p ∈ ps, p.rst = false) ∧ (off 0x00 9).rst = false ∧ (off 0x00 9).inValid = true ∧
    acceptedBytes (ps ++ [off 0x00 9]) = scenarioA ∧ validFrame (st [0x11, 0x22] []).cfg scenarioA = true ∧
    (st [0x11, 0x22] []).cfg.hdr1 ∉ scenarioA.tail := by decide

/-- V-SRC-5: 85 bytes without `HDR1`. -/
theorem witness_NoiseLeavesRemainderAndNoReading :
    (st [] (List.replicate 85 (off 0x00 0))).cand = [] ∧
    ∀ p ∈ List.replicate 85 (off 0x00 0), p.rst = false ∧ p.inValid = true ∧ p.inData ≠ (st [] []).cfg.hdr1 := by
  refine ⟨rfl, fun p hp => ?_⟩
  rw [List.eq_of_mem_replicate hp]
  decide

theorem witness_ReadingsAreFrameLengthApart :
    Inv presenting ∧ presenting.outValid = true ∧ 21 < presenting.cfg.frameLen :=
  ⟨inv_presenting, rfl, by decide⟩

theorem witness_CandidateIsHiddenUntilEmission :
    (st (almost.dropLast) [off 0 0]).cand.length + 1 < (st [] []).cfg.frameLen ∧
    ([0x11, 0x22] : List Byte).length + 1 < (st [] []).cfg.frameLen := by decide

/-- The test configuration with `HDR2 = HDR1`. -/
def equalHeaders : Config := ⟨{ ConfigData.stated OpenParams.test with hdr2 := 0xAA }, by decide⟩

theorem witness_EqualHeaderBytesMeanNoReading :
    ∃ t, Inv (State.resetWith equalHeaders [off 0xAA 0]) ∧ equalHeaders.hdr1 = equalHeaders.hdr2 ∧
      step (State.resetWith equalHeaders [off 0xAA 0]) = .next t := by
  refine ⟨_, ?_, rfl, rfl⟩
  constructor <;> decide

/-- The test configuration with the code 0x2A for `9`: with its point set, that digit's byte is `HDR1`. -/
def magicNine : Config :=
  ⟨ConfigData.stated { OpenParams.test with
    digitRom := #v[0x3F, 0x06, 0x5B, 0x4F, 0x66, 0x6D, 0x7D, 0x07, 0x7F, 0x2A, 0x38, 0x00] }, by decide⟩

theorem witness_MagicDigitByteIsNeverRead :
    ∃ t, Inv { State.resetWith magicNine [off 0x00 0] with cand := almost } ∧ magicNine.unknownDigit = .noMatch ∧
      magicNine.digitOff.get 3 ≠ 0 ∧ glyphByte magicNine true .d9 = magicNine.hdr1 ∧
      step { State.resetWith magicNine [off 0x00 0] with cand := almost } = .next t ∧ t.outValid = true := by
  refine ⟨_, ?_, rfl, by decide, by decide, rfl, by decide⟩
  constructor <;> decide

/-- A restart, a cell to fill and the completing byte. -/
theorem witness_RealizationDoesTheSame :
    (Realized.mk (List.replicate 21 0x11) 0).fits Config.test = true ∧ (Realized.mk almost 21).fits Config.test = true ∧
    (Realized.mk almost 22).fits Config.test = false := by decide

theorem witness_WrittenFrameReadsBack :
    expandFrame (st [0x11] []).cfg digitsP1 #v[0x00, 0x01, 0x04, 0x00, 0x00] 0x00 = some scenarioA ∧
    (st [0x11] (scenarioA.map (byteEdge 100) ++ [idle])).inputs = scenarioA.map (byteEdge 100) ++ [idle] :=
  ⟨by decide, rfl⟩

end Sys2Proof.Tests
end

section
/-! SUPPORT and PROOF. The shape of the vocabulary that `wf_vocab` fixes, the entry it gives every group and bit, and the
presence masks read bit by bit (R26). -/

namespace Sys2Proof

theorem Config.vocab_length (cfg : Config) : cfg.vocab.length = 5 := by
  have h := cfg.passes .wfVocab
  simp only [ConfigCheck.passes, Bool.and_eq_true, decide_eq_true_eq] at h
  exact h.1

theorem Config.length_of_mem_vocab (cfg : Config) {row : List (Option Text)} (hrow : row ∈ cfg.vocab) :
    row.length = 8 := by
  have h := cfg.passes .wfVocab
  simp only [ConfigCheck.passes, Bool.and_eq_true, List.all_eq_true, decide_eq_true_eq] at h
  exact h.2 row hrow

namespace Machine

/-- No lookup of `VOC[g][k]` falls back to a default: the configuration holds that entry (R9, R26). -/
theorem exists_vocab_row_getElem?_eq_fragment (cfg : Config) (g : Fin 5) (k : Fin 8) :
    ∃ row, cfg.vocab[g.val]? = some row ∧ row[k.val]? = some (fragment cfg g k) := by
  have hg : g.val < cfg.vocab.length := cfg.vocab_length.symm ▸ g.isLt
  have hk : k.val < cfg.vocab[g.val].length :=
    (cfg.length_of_mem_vocab (List.getElem_mem hg)).symm ▸ k.isLt
  refine ⟨cfg.vocab[g.val], List.getElem?_eq_getElem hg, ?_⟩
  rw [List.getElem?_eq_getElem hk, fragment, List.getD_eq_getElem _ _ hg, List.getD_eq_getElem _ _ hk]

@[simp] theorem getLsbD_vmask (cfg : Config) (g : Fin 5) (k : Fin 8) :
    (vmask cfg g).getLsbD k.val = (fragment cfg g k).isSome :=
  getLsbD_byteOfBits ..

/-- Settles O28: `wf_vocab` gives the entry, and the mask is built from the fragments bit by bit. -/
theorem maskBitMeansFragmentExists : Obligations.MaskBitMeansFragmentExists := by
  intro cfg g k
  exact ⟨exists_vocab_row_getElem?_eq_fragment cfg g k, getLsbD_vmask cfg g k⟩

end Machine

end Sys2Proof
end

section
/-! SUPPORT and PROOF. The parameters of a stated configuration (R7), and what its formats read: the input byte (R50), the
header view of a frame (R52) and the fields of a digit byte (R53). -/

namespace Sys2Proof

namespace ConfigData.IsStated

variable {d : ConfigData}

theorem hdr1 (h : d.IsStated) : d.hdr1 = 0xAA := congrArg ConfigData.hdr1 h

theorem hdr2 (h : d.IsStated) : d.hdr2 = 0x55 := congrArg ConfigData.hdr2 h

theorem frameLen (h : d.IsStated) : d.frameLen = 22 := congrArg ConfigData.frameLen h

theorem dpBit (h : d.IsStated) : d.dpBit = 7 := congrArg ConfigData.dpBit h

theorem digitOff_get (h : d.IsStated) (i : Fin 4) : d.digitOff.get i = 9 - i.val := by
  have offsets : d.digitOff = #v[9, 8, 7, 6] := congrArg ConfigData.digitOff h
  rw [offsets]
  fin_cases i <;> rfl

end ConfigData.IsStated

open Machine

@[simp] theorem decode_inByte (cfg : Config) (b : Byte) : decode cfg .inByte [b] = .ok (decodeByte cfg b) := rfl

theorem decode_frame {cfg : Config} {F : Frame} (hl : F.length = cfg.frameLen) :
    decode cfg .frame F = .ok (decodeFrame cfg F) := by
  simp [decode, hl]

namespace Machine

/-- `HDR1 * 256 + HDR2` of R52, as a number. -/
theorem headerSignature_toNat {cfg : Config} (hs : cfg.IsStated) : (headerSignature cfg).toNat = 0xAA55 := by
  rw [headerSignature, append_byte_toNat, hs.hdr1, hs.hdr2]
  rfl

theorem headerOf_eq_signature_iff_toNat {cfg : Config} {F : Frame} (hs : cfg.IsStated) :
    headerOf F = headerSignature cfg ↔ (headerOf F).toNat = 0xAA55 := by
  rw [← BitVec.toNat_inj, headerSignature_toNat hs]

/-- With the decimal point at bit 7 the seven other bits are `b[6:0]`, none of them moved (R53, R54). -/
theorem removeBit_seven (b : Byte) : removeBit 7 b = b.setWidth 7 := by
  have above : b >>> (7 + 1) = 0#8 := BitVec.ushiftRight_eq_zero (le_refl 8)
  have below : (b &&& lowMask 7).setWidth 7 = b.setWidth 7 := by
    rw [BitVec.setWidth_and, show (lowMask 7).setWidth 7 = BitVec.allOnes 7 from rfl, BitVec.and_allOnes]
  change ((b &&& lowMask 7) ||| ((b >>> (7 + 1)) <<< 7)).setWidth 7 = b.setWidth 7
  rw [above, BitVec.zero_shiftLeft, BitVec.or_zero, below]

theorem codeOf_toNat {cfg : Config} (hs : cfg.IsStated) (b : Byte) : (codeOf cfg b).toNat = b.toNat % 128 := by
  rw [codeOf, hs.dpBit, removeBit_seven, BitVec.toNat_setWidth]

theorem dpOf_eq_getLsbD {cfg : Config} (hs : cfg.IsStated) (b : Byte) : dpOf cfg b = b.getLsbD 7 := by
  rw [dpOf, hs.dpBit]
  rfl

theorem digitByte_eq_byteAt {cfg : Config} (hs : cfg.IsStated) (F : Frame) (i : Fin 4) :
    digitByte cfg F i = byteAt F (9 - i.val) := by
  rw [digitByte, hs.digitOff_get]

end Machine

/-- Settles O4: the header view is the two bytes as one number, and equals the signature when that number is 0xAA55. -/
theorem headerViewSelectsValidatorRow : Obligations.HeaderViewSelectsValidatorRow := by
  intro cfg F hs hl
  refine ⟨headerOf_toNat F, ?_⟩
  rw [decode_frame (hl.trans hs.frameLen.symm)]
  simp only [decodeFrame, headerOf_eq_signature_iff_toNat hs]

/-- Settles O3: the decoder compares the byte with `HDR1`, which is 0xAA. -/
theorem inputByteSelectsSyncRow : Obligations.InputByteSelectsSyncRow := by
  intro cfg b hs
  rw [decode_inByte, decodeByte, hs.hdr1]

/-- Settles O21: the digit's byte stands at `9 - i`, and `DP_BIT = 7` parts it into its top bit and the seven below. -/
theorem digitByteFieldsOfFrame : Obligations.DigitByteFieldsOfFrame := by
  intro cfg F pos hs
  rw [dpOf_eq_getLsbD hs, codeOf_toNat hs, digitByte_eq_byteAt hs, hs.digitOff_get]
  exact ⟨rfl, rfl, rfl, rfl⟩

end Sys2Proof
end

section
/-! SUPPORT and PROOF. The synchronizer: the rows an input byte selects (R50, R71, R72), the overflow drop after an append
(R73), the emission (R74), and `SYNC.DATA` by what its emission yields (R70). -/

namespace Sys2Proof

@[simp] theorem decodeByte_hdr1 (cfg : Config) : decodeByte cfg cfg.hdr1 = .syncHdr := if_pos rfl

theorem decodeByte_of_ne_hdr1 {cfg : Config} {b : Byte} (hb : b ≠ cfg.hdr1) : decodeByte cfg b = .syncData b :=
  if_neg hb

namespace Machine

theorem exec_syncHdr (s : State) : exec .syncHdr s = .next { s with cand := [s.cfg.hdr1] } :=
  congrArg Host.Outcome.next (doSyncHdr_eq s)

/-- The row that a frame's header selects is the validator's operation on that frame (R52, R85). -/
theorem exec_decodeFrame (F : Frame) (s : State) : exec (decodeFrame s.cfg F) s = .next (runValidator F s) := by
  unfold decodeFrame runValidator
  split <;> rfl

/-! ### The overflow drop -/

@[simp] theorem overflow_cfg (s : State) : (overflow s).cfg = s.cfg := by
  unfold overflow
  split <;> rfl

/-- The drop takes back exactly the append before it. -/
theorem overflow_append (b : Byte) (s : State) :
    overflow (append b s) = if s.cfg.maxBuf ≤ s.cand.length + 1 then s else append b s := by
  split
  next full =>
    rw [overflow_of_le (by simpa using full)]
    simp [append]
  next room => exact overflow_of_lt (by simpa using room)

/-- A buffer within R23(a) has room for the append in any well-formed configuration (R9, R75). -/
theorem overflow_append_of_short {s : State} (b : Byte) (hs : s.cand.length ≤ s.cfg.frameLen - 1) :
    overflow (append b s) = append b s := by
  have hlen := s.cfg.ten_le_frameLen
  have hbuf := s.cfg.frameLen_lt_maxBuf
  apply overflow_of_lt
  simp only [append_cand, append_cfg, List.length_append, List.length_singleton]
  omega

/-! ### The emission -/

theorem emit_of_length_eq {s : State} (hl : s.cand.length = s.cfg.frameLen) :
    emit s = ({ s with cand := [] }, some s.cand) := if_pos hl

theorem emit_of_length_ne {s : State} (hl : s.cand.length ≠ s.cfg.frameLen) : emit s = (s, none) := if_neg hl

@[simp] theorem emit_cfg (s : State) : (emit s).1.cfg = s.cfg := by
  unfold emit
  split <;> rfl

/-! ### `SYNC.DATA` -/

theorem exec_syncData_of_emit_none {s t : State} {b : Byte} (h : emit (overflow (append b s)) = (t, none)) :
    exec (.syncData b) s = .next t := by
  change Host.Outcome.next (finishStep (append b s)) = .next t
  rw [finishStep, h]

/-- An emitted frame goes to the row its header selects, on the state the emission left (R43, R70). -/
theorem exec_syncData_of_emit_some {s t : State} {b : Byte} {F : Frame}
    (h : emit (overflow (append b s)) = (t, some F)) : exec (.syncData b) s = exec (decodeFrame s.cfg F) t := by
  have hcfg : t.cfg = s.cfg := by
    have kept := emit_cfg (overflow (append b s))
    rwa [h, overflow_cfg, append_cfg] at kept
  rw [← hcfg, exec_decodeFrame]
  change Host.Outcome.next (finishStep (append b s)) = .next (runValidator F t)
  rw [finishStep, h]

/-- From a buffer within R23(a), `SYNC.DATA` by the length that its append makes (R72, R74). -/
theorem exec_syncData_of_short {s : State} (b : Byte) (hs : s.cand.length ≤ s.cfg.frameLen - 1) :
    exec (.syncData b) s =
      if s.cand.length + 1 = s.cfg.frameLen then exec (decodeFrame s.cfg (s.cand ++ [b])) { s with cand := [] }
      else .next { s with cand := s.cand ++ [b] } := by
  have hnodrop := overflow_append_of_short b hs
  split
  next full =>
    apply exec_syncData_of_emit_some
    rw [hnodrop, emit_of_length_eq (by simpa using full)]
    rfl
  next partly =>
    apply exec_syncData_of_emit_none
    rw [hnodrop, emit_of_length_ne (by simpa using partly)]
    rfl

end Machine

open Machine

/-- Settles O6: `HDR1` is tried first, and the one byte that the restart leaves is too short to drop or to emit. -/
theorem syncHdrLeavesOnlyMagicByte : Obligations.SyncHdrLeavesOnlyMagicByte := by
  intro s
  refine ⟨?_, exec_syncHdr s⟩
  rw [decode_inByte, decodeByte_hdr1]

/-- Settles O55: within R23(a) the drop does not act, so the appended buffer is emitted or kept whole. -/
theorem dataByteIsAppendedOrEmitted : Obligations.DataByteIsAppendedOrEmitted := by
  intro s b hb hs
  refine ⟨?_, exec_syncData_of_short b hs⟩
  rw [decode_inByte, decodeByte_of_ne_hdr1 hb]

/-- Settles O8: the drop undoes the append, and `wf_max_buf` leaves room for it within R23(a). -/
theorem overflowDropsNewestByte : Obligations.OverflowDropsNewestByte := by
  intro s b
  exact ⟨overflow_append b s, overflow_append_of_short b⟩

/-- Settles O9: `EMIT` acts by length alone, and the validator's row follows on the state it leaves. Neither `b ≠ HDR1` nor
R23(a) is needed for that. -/
theorem emitHandsOverWholeBuffer : Obligations.EmitHandsOverWholeBuffer := by
  intro s
  refine ⟨?_, fun b t F _ _ hemit => exec_syncData_of_emit_some hemit⟩
  split
  next full => exact emit_of_length_eq full
  next other => exact emit_of_length_ne other

end Sys2Proof
end

section
/-! SUPPORT and PROOF. The validator: on a full-length frame the header selects the row that the validity condition names
(R52, R85, R89), and `VAL.REJECT` by its effect (R87). -/

namespace Sys2Proof

open Machine

/-- The validity condition read through the header view (R52, R85). -/
theorem Machine.validFrame_iff_headerOf {cfg : Config} {F : Frame} :
    validFrame cfg F = true ↔ F.length = cfg.frameLen ∧ headerOf F = headerSignature cfg := by
  rw [validFrame_iff, headerOf_eq_iff]

/-- At full length the decoder's two frame rows part the frames exactly as `Valid` does (R89). -/
theorem decode_frame_eq_of_validFrame {cfg : Config} {F : Frame} (hl : F.length = cfg.frameLen) :
    decode cfg .frame F = .ok (if validFrame cfg F then .valAccept F else .valReject F) := by
  have hvalid : validFrame cfg F = true ↔ headerOf F = headerSignature cfg := by
    rw [validFrame_iff_headerOf, and_iff_right hl]
  rw [decode_frame hl, decodeFrame]
  simp only [hvalid]

theorem Machine.exec_valReject (F : Frame) (s : State) : exec (.valReject F) s = .next s := rfl

/-- Settles O15: at full length only the header can make a frame invalid, so it selects `VAL.REJECT`, which answers the
state it was given. -/
theorem valRejectLeavesNoTrace : Obligations.ValRejectLeavesNoTrace := by
  intro s F
  refine ⟨fun hl hinvalid => ?_, exec_valReject F s⟩
  rw [decode_frame_eq_of_validFrame hl, if_neg (Bool.eq_false_iff.mp hinvalid)]

end Sys2Proof
end

section
/-! SUPPORT and PROOF. The digit decoder: the row that a digit byte selects (R53, R91 to R103), what a glyph's row writes
and contributes, the digits that are never numeric (R105), the lookup at the stated parameters (R90), and which bytes of a
frame the digit part of a reading depends on (R109). -/

namespace Sys2Proof

open Machine

/-! ### The row of a glyph -/

@[simp] theorem decode_digit (cfg : Config) (pos : Fin 4) (b : Byte) :
    decode cfg (.digit pos) [b] = .ok (decodeDigit cfg pos b) := rfl

/-- A byte that carries a glyph's code selects that glyph's row, with the byte's own decimal point (R91 to R102). -/
theorem decode_digit_of_code_eq {cfg : Config} {b : Byte} {g : Glyph} (pos : Fin 4)
    (hcode : (codeOf cfg b).setWidth 8 = romCode cfg g) :
    decode cfg (.digit pos) [b] = .ok (digitInstr pos (dpOf cfg b) g) := by
  rw [decode_digit, decodeDigit, romFind_eq_some.mpr hcode.symm]

namespace Machine

theorem exec_digitInstr (pos : Fin 4) (dp : Bool) (g : Glyph) (s : State) :
    exec (digitInstr pos dp g) s = .next (putDigit pos (glyphCode g) dp s) := by
  cases g <;> rfl

/-! ### Digits that are never numeric -/

/-- One `L` or NOMATCH, at any position, is enough (R101, R103, R105). -/
theorem numericOf_eq_false_of_get {gc : Vector GlyphCode 4} {i : Fin 4} (dp : Vector Bool 4)
    (hi : gc.get i = 0xA ∨ gc.get i = 0xF) : numericOf gc dp = false := by
  have hmem : gc.get i ∈ gc.toList := by simp [Vector.get]
  have hall : gc.toList.all (fun c => c != 0xA && c != 0xF) = false := by
    rw [List.all_eq_false]
    exact ⟨gc.get i, hmem, by rcases hi with h | h <;> simp [h]⟩
  rw [numericOf, hall, Bool.false_and, Bool.false_and]

theorem numericOf_eq_false_of_no_digit {gc : Vector GlyphCode 4} (dp : Vector Bool 4)
    (hgc : gc.toList.any isDigitCode = false) : numericOf gc dp = false := by
  rw [numericOf, hgc, Bool.and_false]

/-! ### The lookup at the stated parameters -/

theorem codeOf_eq_setWidth {cfg : Config} (hs : cfg.IsStated) (b : Byte) : codeOf cfg b = b.setWidth 7 := by
  rw [codeOf, hs.dpBit, removeBit_seven]

/-! ### The digit part of a reading -/

/-- `VAL.ACCEPT` of a valid frame writes the whole reading and raises `out_valid` (R86, R125). -/
theorem exec_valAccept_of_validFrame {s : State} {F : Frame} (hvalid : validFrame s.cfg F = true) :
    exec (.valAccept F) s = .next { s with outValid := true, out := readingOf s.cfg F (port s).now } := by
  change Host.Outcome.next (doValAccept F s) = _
  rw [doValAccept, if_pos hvalid, decodeReading_eq]

/-- Frames with the same digit bytes have readings that differ in the labels and the timestamp at most (R109). -/
theorem readingOf_of_digitByte_eq {cfg : Config} {F G : Frame} (now now' : Nat)
    (hdigits : ∀ i, digitByte cfg F i = digitByte cfg G i) :
    readingOf cfg F now =
      { readingOf cfg G now' with lbl := (readingOf cfg F now).lbl, ts := (readingOf cfg F now).ts } := by
  simp only [readingOf, hdigits]

end Machine

/-- What R91 to R100 say of one row, for any glyph: it is selected by the glyph's code, completes, writes only its glyph
code and the point at its digit, and contributes the point and the glyph's string. -/
theorem digitRow_selects_writes_renders (s : State) (pos : Fin 4) (g : Glyph) {str : Text}
    (hstr : glyphString (glyphCode g) = str) :
    (∀ b : Byte, (codeOf s.cfg b).setWidth 8 = romCode s.cfg g →
      decode s.cfg (.digit pos) [b] = .ok (digitInstr pos (dpOf s.cfg b) g)) ∧
    ∀ dp, exec (digitInstr pos dp g) s = .next (putDigit pos (glyphCode g) dp s) ∧
      digitSubstring (glyphCode g) dp = (if dp then ['.'] else []) ++ str := by
  refine ⟨fun b => decode_digit_of_code_eq pos, fun dp => ⟨exec_digitInstr pos dp g s, ?_⟩⟩
  rw [digitSubstring, hstr]

/-- Settles O17: each of the ten rows is its glyph's case of `digitRow_selects_writes_renders`. -/
theorem digitRowsWriteGlyphCode : Obligations.DigitRowsWriteGlyphCode := by
  intro s pos
  have row := digitRow_selects_writes_renders s pos
  exact ⟨row .d0 rfl, row .d1 rfl, row .d2 rfl, row .d3 rfl, row .d4 rfl, row .d5 rfl, row .d6 rfl, row .d7 rfl,
    row .d8 rfl, row .d9 rfl⟩

/-- Settles O18: the two rows are their glyphs' cases of `digitRow_selects_writes_renders`; an `L` fails the first
part of the numeric condition, and four blanks hold no digit, which fails its last part. -/
theorem letterAndBlankRowsWriteGlyphCode : Obligations.LetterAndBlankRowsWriteGlyphCode := by
  intro s pos
  obtain ⟨selL, effL⟩ := digitRow_selects_writes_renders s pos .letterL rfl
  obtain ⟨selBlank, effBlank⟩ := digitRow_selects_writes_renders s pos .blank rfl
  refine ⟨⟨selL, effL, fun gc pts hL => numericOf_eq_false_of_get pts (.inl hL)⟩,
    selBlank, fun dp => ?_, rfl, fun pts => numericOf_eq_false_of_no_digit pts rfl⟩
  obtain ⟨writes, renders⟩ := effBlank dp
  exact ⟨writes, renders.trans (List.append_nil _)⟩

/-- Settles O20: the row that the decoder answers does the digit lookup, whose operands are the byte's low seven bits and
its top bit when `DP_BIT = 7`. -/
theorem digitLookupWritesRomEntry : Obligations.DigitLookupWritesRomEntry := by
  intro s F pos hs
  refine ⟨digitByte_eq_byteAt hs F pos, _, decode_digit .., ?_⟩
  rw [exec_decodeDigit, codeOf_eq_setWidth hs, dpOf_eq_getLsbD hs]
  rfl

/-- Settles O26: both frames are decoded to their readings, whose digit parts agree; the label of one frame does not
depend on the state either. -/
theorem digitFieldsDependOnDigitBytesOnly : Obligations.DigitFieldsDependOnDigitBytesOnly := by
  intro s s' t t' F G hcfg hF hG hdigits ht ht'
  rw [exec_valAccept_of_validFrame hF] at ht
  rw [exec_valAccept_of_validFrame (hcfg ▸ hG), ← hcfg] at ht'
  cases ht
  cases ht'
  have digitPart := readingOf_of_digitByte_eq (port s).now (port s').now hdigits
  refine ⟨?_, ?_, ?_, ?_, ?_, ?_, ?value, ?label⟩
  case value =>
    rw [digitPart]
    rfl
  case label =>
    rintro rfl
    rfl
  all_goals rw [digitPart]

end Sys2Proof
end

section
/-! SUPPORT and PROOF. The label decoder: the row that a group's byte selects and the mask it writes through (R115 to
R121), the label string as a concatenation (R122), the fragments that R123 fixes for this hardware, and which bytes of a
frame the label part of a reading depends on (R124). -/

namespace Sys2Proof

open Machine

@[simp] theorem decode_label (cfg : Config) (g : Fin 5) (lb : Byte) :
    decode cfg (.label g) [lb] = .ok (decodeLabel g lb) := rfl

/-- What R116 to R120 say of one row, for any group: every byte value selects it, and it masks the byte into the group's
own register. -/
theorem labelRow_selects_writes (s : State) (g : Fin 5) (lb : Byte) :
    decode s.cfg (.label g) [lb] = .ok (decodeLabel g lb) ∧ exec (decodeLabel g lb) s = .next (putLabel g lb s) :=
  ⟨decode_label .., exec_decodeLabel g lb s⟩

namespace Machine

/-! ### Masking -/

/-- A bit with no fragment is masked to 0 (R116 to R121). -/
theorem getLsbD_and_vmask_of_fragment_none {cfg : Config} {g : Fin 5} {k : Fin 8} (lb : Byte)
    (hnone : fragment cfg g k = none) : (lb &&& vmask cfg g).getLsbD k.val = false := by
  rw [BitVec.getLsbD_and, getLsbD_vmask, hnone, Option.isSome_none, Bool.and_false]

/-! ### The strings -/

/-- A walk over the eight bits of a byte, written out. -/
theorem flatMap_finRange_eight {α : Type} (f : Fin 8 → List α) :
    (List.finRange 8).flatMap f = f 0 ++ f 1 ++ f 2 ++ f 3 ++ f 4 ++ f 5 ++ f 6 ++ f 7 := by
  rw [show List.finRange 8 = [0, 1, 2, 3, 4, 5, 6, 7] from rfl]
  simp only [List.flatMap_cons, List.flatMap_nil, List.append_nil, List.append_assoc]

/-- A walk over the five groups, written out. -/
theorem flatMap_finRange_five {α : Type} (f : Fin 5 → List α) :
    (List.finRange 5).flatMap f = f 0 ++ f 1 ++ f 2 ++ f 3 ++ f 4 := by
  rw [show List.finRange 5 = [0, 1, 2, 3, 4] from rfl]
  simp only [List.flatMap_cons, List.flatMap_nil, List.append_nil, List.append_assoc]

theorem groupLabel_zero (cfg : Config) (g : Fin 5) : groupLabel cfg g 0 = [] := by
  simp [groupLabel]

theorem labelString_eq_nil_of_get_eq_zero {cfg : Config} {lbl : Vector Byte 5} (hzero : ∀ g, lbl.get g = 0) :
    labelString cfg lbl = [] := by
  rw [labelString, List.flatMap_eq_nil_iff]
  intro g _
  rw [hzero, groupLabel_zero]

/-! ### The vocabulary -/

/-- What stands in a group's row of the vocabulary is the fragment of one of its eight bits (R9, R26). -/
theorem exists_fragment_eq_of_mem {cfg : Config} {g : Fin 5} {entry : Option Text}
    (hmem : entry ∈ cfg.vocab.getD g.val []) : ∃ k, fragment cfg g k = entry := by
  obtain ⟨k, hk, hentry⟩ := List.mem_iff_getElem.mp hmem
  have hg : g.val < cfg.vocab.length := cfg.vocab_length.symm ▸ g.isLt
  have hrow : (cfg.vocab.getD g.val []).length = 8 := by
    rw [List.getD_eq_getElem _ _ hg]
    exact cfg.length_of_mem_vocab (List.getElem_mem hg)
  refine ⟨⟨k, hrow ▸ hk⟩, ?_⟩
  rw [fragment, List.getD_eq_getElem _ _ hk, hentry]

/-! ### The label part of a reading -/

/-- Frames with the same label bytes have readings with the same label registers, whatever the time (R124). -/
theorem readingOf_lbl_of_labelByte_eq {cfg : Config} {F G : Frame} (now now' : Nat)
    (hlabels : ∀ g, labelByte cfg F g = labelByte cfg G g) :
    (readingOf cfg F now).lbl = (readingOf cfg G now').lbl := by
  simp only [readingOf, hlabels]

end Machine

/-- Settles O30: both walks, over the groups and over each group's bits, are written out; no set bit means no fragment. -/
theorem labelStringConcatenatesGroups : Obligations.LabelStringConcatenatesGroups := by
  intro cfg lbl
  refine ⟨?_, labelString_eq_nil_of_get_eq_zero⟩
  simp only [labelString, groupLabel, flatMap_finRange_five, flatMap_finRange_eight]

/-- Settles O31: both frames are decoded to their readings, whose label registers agree, and the label string reads only
those and the configuration. -/
theorem labelsDependOnLabelBytesOnly : Obligations.LabelsDependOnLabelBytesOnly := by
  intro s s' t t' F G hcfg hF hG hlabels ht ht'
  rw [exec_valAccept_of_validFrame hF] at ht
  rw [exec_valAccept_of_validFrame (hcfg ▸ hG), ← hcfg] at ht'
  cases ht
  cases ht'
  have labelPart := readingOf_lbl_of_labelByte_eq (port s).now (port s').now hlabels
  exact ⟨labelPart, congrArg (labelString s.cfg) labelPart⟩

/-- Settles O27: each of the five rows is its group's case of `labelRow_selects_writes`; the mask has no bit where the
vocabulary has no fragment, and a group's string walks its bits from the lowest up. -/
theorem labelRowsWriteMaskedByte : Obligations.LabelRowsWriteMaskedByte := by
  intro s lb
  have row := fun g => labelRow_selects_writes s g lb
  refine ⟨row 0, row 1, row 2, row 3, row 4, fun g sel => ⟨fun _ => rfl, fun k hnone => ?mask, ?walk⟩⟩
  case mask => exact getLsbD_and_vmask_of_fragment_none lb hnone
  case walk => exact flatMap_finRange_eight _

/-- Settles O44: the free parameters are admissible, so each of the two rows holds its fragment, at one of its eight bits. -/
theorem vocabularyHasScenarioFragments : Obligations.VocabularyHasScenarioFragments := by
  have admitted := Config.openParams_admissible
  simp only [OpenParams.admissible, OpenParams.meetsScenarioA, Bool.and_eq_true, List.contains_iff_mem] at admitted
  obtain ⟨_, hV, hDC⟩ := admitted
  exact ⟨exists_fragment_eq_of_mem hV, exists_fragment_eq_of_mem hDC⟩

end Sys2Proof
end

section
/-! SUPPORT and PROOF. No exceptions: every operation and every step completes (R140). -/

namespace Sys2Proof

open Machine

/-- Each of the 22 arms of `exec` answers the state its operation makes; none consults the state first. -/
theorem Machine.exec_answers_next (row : Instr) (s : State) : ∃ t, exec row s = .next t := by
  cases row <;> exact ⟨_, rfl⟩

/-- `step_eq` names the state that each kind of edge answers: reset, idle, or an accepted byte (R130, R131, R160). -/
theorem Machine.step_answers_next (s : State) : ∃ t, step s = .next t :=
  ⟨_, step_eq s⟩

/-- Settles O34: operations by `exec_answers_next`, edges by `step_answers_next`. -/
theorem nothingEverStops : Obligations.NothingEverStops :=
  ⟨exec_answers_next, step_answers_next⟩

end Sys2Proof
end

section
/-! SUPPORT and PROOF. The reset edge: it wins over the byte offered with it, and a cycle without `out_valid` shows no
reading (R144, R160, R162). -/

namespace Sys2Proof

open Machine

namespace Machine

/-- Reset wins whatever byte is offered with it, so no operation is carried out (R144, R160). -/
theorem step_of_rst {s : State} {p : PortIn} {rest : List PortIn} (hin : s.inputs = p :: rest) (hrst : p.rst = true) :
    step s = .next (advance (resetEdge s)) := by
  have isReset : edgeOf (port s) = .reset := port_cons hin ▸ edgeOf_reset hrst
  simp only [step, isReset]

theorem presented_one_eq_nil {s t : State} (hstep : step s = .next t) (hvalid : t.outValid = false) :
    presented 1 s = [] := by
  rw [presented_succ hstep]
  simp [hvalid, presented]

end Machine

/-- Settles O41: `step_of_rst` decides the edge before the buffer or the offered byte is looked at, so a completing byte
makes no difference. -/
theorem resetMidFrameDiscardsCandidate : Obligations.ResetMidFrameDiscardsCandidate := by
  intro s p rest hin hrst
  have hstep := step_of_rst hin hrst
  exact ⟨advance (resetEdge s), hstep, rfl, rfl, presented_one_eq_nil hstep rfl⟩

end Sys2Proof
end

section
/-! SUPPORT and PROOF. The decoder and the encoder undo each other (R50 to R56): every well-formed operation is read back
from its bytes, and what is read encodes to the bytes it was read from. -/

namespace Sys2Proof

open Machine

/-! ### From operations to bytes and back -/

theorem decode_glyphByte (cfg : Config) (pos : Fin 4) (dp : Bool) (g : Glyph) :
    decode cfg (.digit pos) [glyphByte cfg dp g] = .ok (digitInstr pos dp g) := by
  rw [decode_digit, decodeDigit_glyphByte]

theorem decodeDigit_of_romFind_eq_none {cfg : Config} {b : Byte} (pos : Fin 4)
    (hnone : romFind cfg (codeOf cfg b) = none) :
    decodeDigit cfg pos b = .digNomatch pos (dpOf cfg b) (codeOf cfg b) := by
  rw [decodeDigit, hnone]

/-- Settles O1: per slot, the decoder's own test selects the row again: the byte against `HDR1`, the header against the
signature, and the code against `DIGIT_ROM`, where a digit byte gives back the two fields it was made of. -/
theorem decodeOfEncodeIsSameRow : Obligations.DecodeOfEncodeIsSameRow := by
  intro cfg i hwf
  cases i with
  | syncHdr => exact congrArg Except.ok (decodeByte_hdr1 cfg)
  | syncData b => exact congrArg Except.ok (decodeByte_of_ne_hdr1 (by simpa [Instr.wf] using hwf))
  | valAccept F =>
    obtain ⟨hlen, hheader⟩ : F.length = cfg.frameLen ∧ headerOf F = headerSignature cfg := by
      simpa [Instr.wf] using hwf
    exact (decode_frame hlen).trans (congrArg Except.ok (if_pos hheader))
  | valReject F =>
    obtain ⟨hlen, hheader⟩ : F.length = cfg.frameLen ∧ headerOf F ≠ headerSignature cfg := by
      simpa [Instr.wf] using hwf
    exact (decode_frame hlen).trans (congrArg Except.ok (if_neg hheader))
  | dig0 pos dp => exact decode_glyphByte cfg pos dp .d0
  | dig1 pos dp => exact decode_glyphByte cfg pos dp .d1
  | dig2 pos dp => exact decode_glyphByte cfg pos dp .d2
  | dig3 pos dp => exact decode_glyphByte cfg pos dp .d3
  | dig4 pos dp => exact decode_glyphByte cfg pos dp .d4
  | dig5 pos dp => exact decode_glyphByte cfg pos dp .d5
  | dig6 pos dp => exact decode_glyphByte cfg pos dp .d6
  | dig7 pos dp => exact decode_glyphByte cfg pos dp .d7
  | dig8 pos dp => exact decode_glyphByte cfg pos dp .d8
  | dig9 pos dp => exact decode_glyphByte cfg pos dp .d9
  | digL pos dp => exact decode_glyphByte cfg pos dp .letterL
  | digBlank pos dp => exact decode_glyphByte cfg pos dp .blank
  | digNomatch pos dp code =>
    have hnone : romFind cfg code = none := Option.isNone_iff_eq_none.mp hwf
    have hrow := decodeDigit_of_romFind_eq_none (b := digitByteOf cfg dp code) pos (by rwa [codeOf_digitByteOf])
    rw [dpOf_digitByteOf, codeOf_digitByteOf] at hrow
    exact congrArg Except.ok hrow
  | lblG0 lb | lblG1 lb | lblG2 lb | lblG3 lb | lblG4 lb => rfl

/-! ### From bytes to operations and back -/

@[simp] theorem digitInstr_wf (cfg : Config) (pos : Fin 4) (dp : Bool) (g : Glyph) :
    (digitInstr pos dp g).wf cfg = true := by
  cases g <;> rfl

@[simp] theorem digitInstr_slot (pos : Fin 4) (dp : Bool) (g : Glyph) : (digitInstr pos dp g).slot = .digit pos := by
  cases g <;> rfl

@[simp] theorem encode_digitInstr (cfg : Config) (pos : Fin 4) (dp : Bool) (g : Glyph) :
    encode cfg (digitInstr pos dp g) = [glyphByte cfg dp g] := by
  cases g <;> rfl

/-- A byte whose code is a glyph's is that glyph's digit byte, with the byte's own point (R53). -/
theorem glyphByte_of_romFind {cfg : Config} {b : Byte} {g : Glyph} (hfind : romFind cfg (codeOf cfg b) = some g) :
    glyphByte cfg (dpOf cfg b) g = b := by
  have hcode : (romCode cfg g).setWidth 7 = codeOf cfg b := by
    rw [romFind_eq_some.mp hfind, BitVec.setWidth_setWidth_of_le _ (by decide), BitVec.setWidth_eq]
  rw [glyphByte, hcode, digitByteOf_fields]

/-- The operation has a pattern, which stands at the slot and is the given bytes. -/
def Instr.IsReadFrom (cfg : Config) (slot : Slot) (bytes : List Byte) (i : Instr) : Prop :=
  i.wf cfg = true ∧ i.slot = slot ∧ encode cfg i = bytes

theorem decodeByte_isReadFrom (cfg : Config) (b : Byte) : (decodeByte cfg b).IsReadFrom cfg .inByte [b] := by
  by_cases hb : b = cfg.hdr1
  · rw [hb, decodeByte_hdr1]
    exact ⟨rfl, rfl, rfl⟩
  · rw [decodeByte_of_ne_hdr1 hb]
    exact ⟨by simpa [Instr.wf] using hb, rfl, rfl⟩

theorem decodeFrame_isReadFrom {cfg : Config} {F : Frame} (hlen : F.length = cfg.frameLen) :
    (decodeFrame cfg F).IsReadFrom cfg .frame F := by
  unfold decodeFrame
  split
  next hheader => exact ⟨by simp [Instr.wf, hlen, hheader], rfl, rfl⟩
  next hheader => exact ⟨by simp [Instr.wf, hlen, hheader], rfl, rfl⟩

theorem decodeDigit_isReadFrom (cfg : Config) (pos : Fin 4) (b : Byte) :
    (decodeDigit cfg pos b).IsReadFrom cfg (.digit pos) [b] := by
  cases hfind : romFind cfg (codeOf cfg b) with
  | some g =>
    rw [decodeDigit, hfind]
    exact ⟨digitInstr_wf .., digitInstr_slot .., by rw [encode_digitInstr, glyphByte_of_romFind hfind]⟩
  | none =>
    rw [decodeDigit_of_romFind_eq_none pos hfind]
    exact ⟨Option.isNone_iff_eq_none.mpr hfind, rfl, congrArg (fun x => [x]) (digitByteOf_fields cfg b)⟩

theorem decodeLabel_isReadFrom (cfg : Config) (g : Fin 5) (b : Byte) :
    (decodeLabel g b).IsReadFrom cfg (.label g) [b] := by
  fin_cases g <;> exact ⟨rfl, rfl, rfl⟩

/-- The byte formats take exactly one byte. -/
theorem eq_singleton_of_decode {cfg : Config} {slot : Slot} {bytes : List Byte} {i : Instr} (hslot : slot ≠ .frame)
    (h : decode cfg slot bytes = .ok i) : ∃ b, bytes = [b] := by
  match bytes with
  | [b] => exact ⟨b, rfl⟩
  | [] | _ :: _ :: _ =>
    cases slot with
    | frame => exact absurd rfl hslot
    | inByte | digit _ | label _ => cases h

theorem length_eq_of_decode_frame {cfg : Config} {F : Frame} {i : Instr} (h : decode cfg .frame F = .ok i) :
    F.length = cfg.frameLen := by
  by_contra hlen
  simp [decode, hlen] at h

/-- Settles O2: slot by slot, each part of the decoder answers an operation that is read from its bytes. -/
theorem encodeOfDecodeIsSameBytes : Obligations.EncodeOfDecodeIsSameBytes := by
  intro cfg slot bytes i h
  change i.IsReadFrom cfg slot bytes
  cases slot with
  | frame =>
    have hlen := length_eq_of_decode_frame h
    rw [decode_frame hlen] at h
    cases h
    exact decodeFrame_isReadFrom hlen
  | inByte =>
    obtain ⟨b, rfl⟩ := eq_singleton_of_decode (by simp) h
    cases h
    exact decodeByte_isReadFrom cfg b
  | digit pos =>
    obtain ⟨b, rfl⟩ := eq_singleton_of_decode (by simp) h
    cases h
    exact decodeDigit_isReadFrom cfg pos b
  | label g =>
    obtain ⟨b, rfl⟩ := eq_singleton_of_decode (by simp) h
    cases h
    exact decodeLabel_isReadFrom cfg g b

/-- Settles O5: seven closed instances of the decoder under the test configuration. -/
theorem specWordsDecodeToTheirRows : Obligations.SpecWordsDecodeToTheirRows := by
  unfold Obligations.SpecWordsDecodeToTheirRows
  decide

end Sys2Proof
end

section
/-! SUPPORT and PROOF. Decimal literals (R105): what the grammar reads, by counting points and digits, and that the digit
string of four glyph codes and points has those counts (R104, R106). The ROM's twelve glyphs (R25), and the value fields
of a reading (R106, R126). -/

namespace Sys2Proof

open Machine

namespace Machine

/-! ### The grammar -/

/-- A character that a decimal literal can hold. -/
def isLiteralChar (c : Char) : Bool := isDigitChar c || c == '.'

/-- The digit characters after the first point. -/
def digitsAfterPoint (t : Text) : Nat := (t.dropWhile (· != '.')).countP isDigitChar

theorem isDigitChar_point : isDigitChar '.' = false := by decide

theorem digitChar_ne_point {c : Char} (hc : isDigitChar c = true) : c ≠ '.' := by
  rintro rfl
  cases hc

/-- A text is its leading digits alone, or they are followed by a first character that is no digit. -/
theorem exists_digits_append (t : Text) : ∃ w r : Text, t = w ++ r ∧ (∀ c ∈ w, isDigitChar c = true) ∧
    ∀ c ∈ r.head?, isDigitChar c = false := by
  refine ⟨t.takeWhile isDigitChar, t.dropWhile isDigitChar, List.takeWhile_append_dropWhile.symm,
    fun c hc => List.mem_takeWhile_imp hc, fun c hc => ?_⟩
  have h := List.head?_dropWhile_not isDigitChar t
  rw [Option.mem_def.mp hc] at h
  exact h

theorem parseDecimal_digits {w : Text} (hw : ∀ c ∈ w, isDigitChar c = true) :
    parseDecimal w = if w.isEmpty then none else some (digitsValue w, 0) := by
  have htake : w.takeWhile isDigitChar = w := List.takeWhile_eq_self_iff.mpr hw
  have hdrop : w.dropWhile isDigitChar = [] := List.dropWhile_eq_nil_iff.mpr hw
  simp only [parseDecimal, htake, hdrop]

theorem parseDecimal_digits_append {w r : Text} {c : Char} (hw : ∀ c ∈ w, isDigitChar c = true)
    (hc : isDigitChar c = false) :
    parseDecimal (w ++ c :: r) =
      if c == '.' && r.all isDigitChar && (!w.isEmpty || !r.isEmpty) then some (digitsValue (w ++ r), r.length)
      else none := by
  have htake : (w ++ c :: r).takeWhile isDigitChar = w := by
    rw [List.takeWhile_append_of_pos hw, List.takeWhile_cons_of_neg (by simp [hc]), List.append_nil]
  have hdrop : (w ++ c :: r).dropWhile isDigitChar = c :: r := by
    rw [List.dropWhile_append_of_pos hw, List.dropWhile_cons_of_neg (by simp [hc])]
  simp only [parseDecimal, htake, hdrop]

theorem all_isDigitChar_iff {t : Text} :
    t.all isDigitChar = true ↔ t.all isLiteralChar = true ∧ t.count '.' = 0 := by
  simp only [List.all_eq_true, List.count_eq_zero, isLiteralChar, Bool.or_eq_true, beq_iff_eq]
  constructor
  · exact fun h => ⟨fun c hc => .inl (h c hc), fun hmem => digitChar_ne_point (h _ hmem) rfl⟩
  · rintro ⟨h, hpoint⟩ c hc
    exact (h c hc).resolve_right fun heq => hpoint (heq ▸ hc)

theorem any_isDigitChar_of_all {t : Text} (h : t.all isDigitChar = true) : t.any isDigitChar = !t.isEmpty := by
  cases t with
  | nil => rfl
  | cons c t =>
    rw [List.all_cons, Bool.and_eq_true] at h
    simp [h.1]

/-- What stands before a first point, when it is digits, does not matter for the digits after the point. -/
theorem digitsAfterPoint_digits_append {w : Text} (r : Text) (hw : w.all isDigitChar = true) :
    digitsAfterPoint (w ++ r) = digitsAfterPoint r := by
  rw [digitsAfterPoint, List.dropWhile_append_of_pos, digitsAfterPoint]
  exact fun c hc => by simpa using digitChar_ne_point (List.all_eq_true.mp hw c hc)

/-- R105's grammar without its order: only digits and points, at most one point, at least one digit; the number is that
of the digits, and the scale how many of them stand after the point. -/
theorem parseDecimal_eq (t : Text) :
    parseDecimal t =
      if t.all isLiteralChar = true ∧ t.count '.' ≤ 1 ∧ t.any isDigitChar = true then
        some (digitsValue (t.filter isDigitChar), digitsAfterPoint t)
      else none := by
  obtain ⟨w, r, rfl, hw, hr⟩ := exists_digits_append t
  have hwAll : w.all isDigitChar = true := List.all_eq_true.mpr hw
  obtain ⟨hwLiteral, hwPoint⟩ := all_isDigitChar_iff.mp hwAll
  have hwFilter : w.filter isDigitChar = w := List.filter_eq_self.mpr hw
  have hwAny := any_isDigitChar_of_all hwAll
  rw [digitsAfterPoint_digits_append r hwAll]
  cases r with
  | nil =>
    rw [List.append_nil, parseDecimal_digits hw, hwLiteral, hwPoint, hwFilter, hwAny]
    cases w <;> simp [digitsAfterPoint]
  | cons c r =>
    rw [parseDecimal_digits_append hw (hr c rfl)]
    by_cases hc : c = '.'
    · subst hc
      by_cases hrAll : r.all isDigitChar = true
      · obtain ⟨hrLiteral, hrPoint⟩ := all_isDigitChar_iff.mp hrAll
        have hrAny := any_isDigitChar_of_all hrAll
        have hrFilter : r.filter isDigitChar = r := List.filter_eq_self.mpr (List.all_eq_true.mp hrAll)
        have hrCount : r.countP isDigitChar = r.length := List.countP_eq_length.mpr (List.all_eq_true.mp hrAll)
        simp [hwLiteral, hwPoint, hwFilter, hwAny, hrAll, hrLiteral, hrPoint, hrAny, hrFilter, hrCount, isLiteralChar,
          isDigitChar_point, digitsAfterPoint]
      · rw [if_neg (by simp [hrAll]), if_neg]
        rintro ⟨hliteral, hcount, -⟩
        rw [List.all_append, List.all_cons, Bool.and_eq_true, Bool.and_eq_true] at hliteral
        rw [List.count_append, List.count_cons_self] at hcount
        exact hrAll (all_isDigitChar_iff.mpr ⟨hliteral.2.2, by omega⟩)
    · have hcLiteral : isLiteralChar c = false := by simp [isLiteralChar, hr c rfl, hc]
      simp [hc, hcLiteral]

/-! ### The digit string -/

/-- The string of a row of digits, each a glyph code with its point: `digitString` at any length. -/
def digitsText (ds : List (GlyphCode × Bool)) : Text := ds.flatMap (fun d => digitSubstring d.1 d.2)

/-- The four digits of a display, most significant first. -/
def digitRow (gc : Vector GlyphCode 4) (dp : Vector Bool 4) : List (GlyphCode × Bool) := gc.toList.zip dp.toList

theorem digitString_eq (gc : Vector GlyphCode 4) (dp : Vector Bool 4) :
    digitString gc dp = digitsText (digitRow gc dp) := by
  rw [vector4_eta gc, vector4_eta dp]
  simp only [digitString, digitsText, digitRow, Vector.toList_mk, List.zip_cons_cons, List.zip_nil_right,
    List.flatMap_cons, List.flatMap_nil, List.append_nil, List.append_assoc]
  rfl

theorem map_fst_digitRow (gc : Vector GlyphCode 4) (dp : Vector Bool 4) : (digitRow gc dp).map Prod.fst = gc.toList :=
  List.map_fst_zip (by simp)

theorem map_snd_digitRow (gc : Vector GlyphCode 4) (dp : Vector Bool 4) : (digitRow gc dp).map Prod.snd = dp.toList :=
  List.map_snd_zip (by simp)

theorem digitsText_cons (d : GlyphCode × Bool) (ds : List (GlyphCode × Bool)) :
    digitsText (d :: ds) = digitSubstring d.1 d.2 ++ digitsText ds := List.flatMap_cons

/-! One digit's substring, over all glyph codes. -/

theorem digitSubstring_all_literal {gc : GlyphCode} (dp : Bool) (hgc : legalCode gc = true) :
    (digitSubstring gc dp).all isLiteralChar = (gc != 0xA && gc != 0xF) := by
  revert gc dp
  decide

theorem count_point_digitSubstring (gc : GlyphCode) (dp : Bool) : (digitSubstring gc dp).count '.' = dp.toNat := by
  revert gc dp
  decide

theorem any_digit_digitSubstring (gc : GlyphCode) (dp : Bool) :
    (digitSubstring gc dp).any isDigitChar = isDigitCode gc := by
  revert gc dp
  decide

theorem countP_digit_digitSubstring (gc : GlyphCode) (dp : Bool) :
    (digitSubstring gc dp).countP isDigitChar = [gc].countP isDigitCode := by
  revert gc dp
  decide

theorem filter_digit_digitSubstring (gc : GlyphCode) (dp : Bool) :
    (digitSubstring gc dp).filter isDigitChar = if isDigitCode gc then [Char.ofNat (48 + gc.toNat)] else [] := by
  revert gc dp
  decide

/-- The digit of a glyph code, read as a character, is the code's number. -/
theorem charValue_of_digitCode {gc : GlyphCode} (h : isDigitCode gc = true) :
    (Char.ofNat (48 + gc.toNat)).toNat - 48 = gc.toNat := by
  revert gc
  decide

/-! The whole string, digit by digit. -/

theorem digitsText_all_literal {ds : List (GlyphCode × Bool)} (hlegal : ∀ d ∈ ds, legalCode d.1 = true) :
    (digitsText ds).all isLiteralChar = (ds.map Prod.fst).all (fun c => c != 0xA && c != 0xF) := by
  induction ds with
  | nil => rfl
  | cons d ds ih =>
    rw [List.forall_mem_cons] at hlegal
    rw [digitsText_cons, List.all_append, digitSubstring_all_literal _ hlegal.1, ih hlegal.2, List.map_cons,
      List.all_cons]

theorem count_point_digitsText (ds : List (GlyphCode × Bool)) :
    (digitsText ds).count '.' = (ds.map Prod.snd).count true := by
  induction ds with
  | nil => rfl
  | cons d ds ih =>
    rw [digitsText_cons, List.count_append, count_point_digitSubstring, ih, List.map_cons, List.count_cons]
    cases d.2 <;> simp [Nat.add_comm]

theorem any_digit_digitsText (ds : List (GlyphCode × Bool)) :
    (digitsText ds).any isDigitChar = (ds.map Prod.fst).any isDigitCode := by
  induction ds with
  | nil => rfl
  | cons d ds ih => rw [digitsText_cons, List.any_append, any_digit_digitSubstring, ih, List.map_cons, List.any_cons]

theorem countP_digit_digitsText (ds : List (GlyphCode × Bool)) :
    (digitsText ds).countP isDigitChar = (ds.map Prod.fst).countP isDigitCode := by
  induction ds with
  | nil => rfl
  | cons d ds ih =>
    rw [digitsText_cons, List.countP_append, countP_digit_digitSubstring, ih, List.map_cons, ← List.countP_append,
      List.singleton_append]

/-- The digits of the string spell what the glyph codes spell, whatever number `m` was read before them. -/
theorem foldl_digits_digitsText (ds : List (GlyphCode × Bool)) (m : Nat) :
    ((digitsText ds).filter isDigitChar).foldl (fun m c => 10 * m + (c.toNat - 48)) m =
      (ds.map Prod.fst).foldl (fun m c => if isDigitCode c then 10 * m + c.toNat else m) m := by
  induction ds generalizing m with
  | nil => rfl
  | cons d ds ih =>
    rw [digitsText_cons, List.filter_append, List.foldl_append, ih, filter_digit_digitSubstring, List.map_cons,
      List.foldl_cons]
    by_cases hd : isDigitCode d.1 = true
    · simp [hd, charValue_of_digitCode hd]
    · simp [hd]

/-- A point stands before its own digit, so the digits after the first point are those from that digit on (R106). -/
theorem digitsAfterPoint_digitsText (ds : List (GlyphCode × Bool)) :
    digitsAfterPoint (digitsText ds) =
      ((ds.map Prod.fst).drop ((ds.map Prod.snd).idxOf true)).countP isDigitCode := by
  induction ds with
  | nil => rfl
  | cons d ds ih =>
    obtain ⟨gc, dp⟩ := d
    cases dp with
    | true =>
      have hfrom : (digitsText ((gc, true) :: ds)).dropWhile (· != '.') = '.' :: digitsText ((gc, false) :: ds) := rfl
      rw [digitsAfterPoint, hfrom, List.countP_cons_of_neg (by simp [isDigitChar_point]), countP_digit_digitsText]
      simp
    | false =>
      have hskip : ∀ c ∈ digitSubstring gc false, (c != '.') = true := by
        have hpoint : '.' ∉ digitSubstring gc false := List.count_eq_zero.mp (count_point_digitSubstring gc false)
        intro c hc
        simpa using fun heq : c = '.' => hpoint (heq ▸ hc)
      rw [digitsAfterPoint, digitsText_cons, List.dropWhile_append_of_pos hskip]
      rw [digitsAfterPoint] at ih
      rw [ih, List.map_cons, List.map_cons, List.idxOf_cons_ne _ (by simp), List.drop_succ_cons]

theorem scaleOf_eq (gc : Vector GlyphCode 4) (dp : Vector Bool 4) :
    scaleOf gc dp = (gc.toList.drop (dp.toList.idxOf true)).countP isDigitCode := by
  rw [scaleOf]
  split
  next hnone =>
    rw [List.idxOf_eq_length (List.count_eq_zero.mp hnone), List.drop_of_length_le (by simp)]
    rfl
  next => rfl

theorem numericOf_iff (gc : Vector GlyphCode 4) (dp : Vector Bool 4) :
    numericOf gc dp = true ↔
      gc.toList.all (fun c => c != 0xA && c != 0xF) = true ∧ dp.toList.count true ≤ 1 ∧
        gc.toList.any isDigitCode = true := by
  rw [numericOf, Bool.and_eq_true, Bool.and_eq_true, decide_eq_true_eq, and_assoc]
  rfl

end Machine

/-- Settles O23: the grammar counts points and digits, and the string has the points and digits of its codes. -/
theorem digitStringParsesToMantissaAndScale : Obligations.DigitStringParsesToMantissaAndScale := by
  intro gc dp hlegal
  have hrow : ∀ d ∈ digitRow gc dp, legalCode d.1 = true := by
    intro d hd
    obtain ⟨i, hi, heq⟩ := List.getElem_of_mem (List.of_mem_zip hd).1
    exact heq ▸ hlegal ⟨i, by simpa using hi⟩
  rw [digitString_eq, parseDecimal_eq, digitsText_all_literal hrow, count_point_digitsText, any_digit_digitsText,
    digitsAfterPoint_digitsText, digitsValue, foldl_digits_digitsText, map_fst_digitRow, map_snd_digitRow, scaleOf_eq]
  simp only [← numericOf_iff]
  rfl

namespace Machine

/-! ### The ROM -/

theorem legalCode_romDig (cfg : Config) (x : Code7) : legalCode (romDig cfg x) = true := by
  cases hfind : romFind cfg x with
  | some g =>
    rw [romDig_of_find hfind]
    cases g <;> rfl
  | none =>
    rw [romDig_of_none hfind, unknownCode]
    split <;> rfl

/-- A glyph's segment code as an entry number of the ROM. -/
def romEntry (cfg : Config) (g : Glyph) : Fin 128 := ⟨(romCode cfg g).toNat, romCode_lt cfg g⟩

theorem romFind_isSome_iff (cfg : Config) (n : Fin 128) :
    (romFind cfg (BitVec.ofNat 7 n.val)).isSome = true ↔ n ∈ Glyph.all.map (romEntry cfg) := by
  have hentry : ∀ g, romCode cfg g = (BitVec.ofNat 7 n.val).setWidth 8 ↔ romEntry cfg g = n := by
    intro g
    rw [← BitVec.toNat_inj, Fin.ext_iff, BitVec.toNat_setWidth, BitVec.toNat_ofNat, Nat.mod_eq_of_lt n.isLt,
      Nat.mod_eq_of_lt (n.isLt.trans (by decide)), romEntry]
  simp only [Option.isSome_iff_exists, romFind_eq_some, hentry, List.mem_map, glyph_mem_all, true_and]

/-- The entries of the twelve glyphs are distinct (wf_rom). -/
theorem nodup_map_romEntry (cfg : Config) : (Glyph.all.map (romEntry cfg)).Nodup := by
  refine List.Nodup.map (fun g g' h => ?_) (by decide)
  have htoNat : (romEntry cfg g).val = (romEntry cfg g').val := congrArg Fin.val h
  exact romCode_injective cfg (BitVec.eq_of_toNat_eq htoNat)

theorem countP_romFind (cfg : Config) :
    (List.finRange 128).countP (fun n => (romFind cfg (BitVec.ofNat 7 n.val)).isSome) = 12 := by
  rw [List.countP_eq_length_filter]
  have hperm : ((List.finRange 128).filter (fun n => (romFind cfg (BitVec.ofNat 7 n.val)).isSome)).Perm
      (Glyph.all.map (romEntry cfg)) := by
    refine (List.perm_ext_iff_of_nodup ((List.nodup_finRange 128).filter _) (nodup_map_romEntry cfg)).mpr fun n => ?_
    rw [List.mem_filter, romFind_isSome_iff]
    simp only [List.mem_finRange, true_and]
  rw [hperm.length_eq, List.length_map]
  rfl

/-! ### The value fields -/

/-- Reading the digits of `gcs` after a number `m`: each makes the number at most ten times larger, and 9 more. -/
theorem foldl_digits_lt (gcs : List GlyphCode) (m : Nat) :
    gcs.foldl (fun m c => if isDigitCode c then 10 * m + c.toNat else m) m < (m + 1) * 10 ^ gcs.length := by
  induction gcs generalizing m with
  | nil => simp
  | cons c gcs ih =>
    rw [List.foldl_cons, List.length_cons, pow_succ']
    refine (ih _).trans_le ?_
    rw [← mul_assoc]
    refine Nat.mul_le_mul_right _ ?_
    split
    next hdigit =>
      have hc : c.toNat ≤ 9 := by simpa [isDigitCode] using hdigit
      omega
    next => omega

theorem mantissaOf_le (gc : Vector GlyphCode 4) : mantissaOf gc ≤ 9999 := by
  have h := foldl_digits_lt gc.toList 0
  rw [Vector.length_toList] at h
  exact Nat.le_of_lt_succ h

theorem scaleOf_le (gc : Vector GlyphCode 4) (dp : Vector Bool 4) : scaleOf gc dp ≤ 4 := by
  rw [scaleOf_eq]
  calc _ ≤ (gc.toList.drop (dp.toList.idxOf true)).length := List.countP_le_length
    _ ≤ gc.toList.length := by rw [List.length_drop]; exact Nat.sub_le ..
    _ = 4 := Vector.length_toList

section
variable (cfg : Config) (F : Frame) (now : Nat)

theorem readingOf_numeric : (readingOf cfg F now).numeric =
    numericOf (readingOf cfg F now).digCode (readingOf cfg F now).digDp := rfl

theorem readingOf_digCode_get (i : Fin 4) :
    (readingOf cfg F now).digCode.get i = romDig cfg (codeOf cfg (digitByte cfg F i)) := get_ofFn ..

theorem readingOf_digDp_get (i : Fin 4) :
    (readingOf cfg F now).digDp.get i = dpOf cfg (digitByte cfg F i) := get_ofFn ..

theorem readingOf_lbl_get (g : Fin 5) :
    (readingOf cfg F now).lbl.get g = labelByte cfg F g &&& vmask cfg g := get_ofFn ..

theorem readingOf_ts : (readingOf cfg F now).ts = now % 2 ^ cfg.tsW := rfl

/-- The 14-bit register holds the mantissa without loss (R106). -/
theorem readingOf_mant_toNat : (readingOf cfg F now).mant.toNat =
    if (readingOf cfg F now).numeric then mantissaOf (readingOf cfg F now).digCode else 0 := by
  have hfit := mantissaOf_le (readingOf cfg F now).digCode
  change BitVec.toNat (if (readingOf cfg F now).numeric then BitVec.ofNat 14 (mantissaOf (readingOf cfg F now).digCode)
    else 0) = _
  split
  · rw [BitVec.toNat_ofNat, Nat.mod_eq_of_lt (by omega)]
  · rfl

/-- The 3-bit register holds the scale without loss (R106). -/
theorem readingOf_scale_toNat : (readingOf cfg F now).scale.toNat =
    if (readingOf cfg F now).numeric then scaleOf (readingOf cfg F now).digCode (readingOf cfg F now).digDp else 0 := by
  have hfit := scaleOf_le (readingOf cfg F now).digCode (readingOf cfg F now).digDp
  change BitVec.toNat (if (readingOf cfg F now).numeric
    then BitVec.ofNat 3 (scaleOf (readingOf cfg F now).digCode (readingOf cfg F now).digDp) else 0) = _
  split
  · rw [BitVec.toNat_ofNat, Nat.mod_eq_of_lt (by omega)]
  · rfl

end

end Machine

/-- Settles O22: the entries that hold a glyph are the twelve distinct ones of the glyphs' codes. -/
theorem romHoldsTwelveGlyphs : Obligations.RomHoldsTwelveGlyphs := by
  intro cfg
  exact ⟨fun g => romDig_of_find (romFind_romCode cfg g), fun x hx => romDig_of_none (romFind_eq_none.mpr hx),
    countP_romFind cfg⟩

/-- Settles O24: four digits spell less than 10^4 and at most four of them follow the point, whatever the codes. -/
theorem mantissaAndScaleFitRegisters : Obligations.MantissaAndScaleFitRegisters := by
  intro cfg F now
  exact ⟨mantissaOf_le _, scaleOf_le _ _, readingOf_mant_toNat .., readingOf_scale_toNat ..⟩

/-- Settles O25: the ROM yields legal codes only, so the string parses exactly when the reading is numeric, and then the
registers hold what it spells. -/
theorem readingValueIsItsDigitString : Obligations.ReadingValueIsItsDigitString := by
  intro cfg F now
  have hparse := digitStringParsesToMantissaAndScale (readingOf cfg F now).digCode (readingOf cfg F now).digDp
    fun i => readingOf_digCode_get cfg F now i ▸ legalCode_romDig ..
  rw [← readingOf_numeric] at hparse
  simp only [valueOf, hparse, readingOf_mant_toNat, readingOf_scale_toNat]
  cases (readingOf cfg F now).numeric <;> rfl

end Sys2Proof
end

section
/-! SUPPORT and PROOF. What the rows do, slot by slot: the SYNC rows (R70 to R74), Decode(F) as one reading and as the
digit and label rows run in order (R86, R90, R115), and the registers each row leaves alone (R27, R30). -/

namespace Sys2Proof

open Machine

namespace Machine

/-! ### `VAL.ACCEPT` -/

theorem exec_valAccept_of_not_validFrame {s : State} {F : Frame} (hinvalid : ¬ validFrame s.cfg F = true) :
    exec (.valAccept F) s = .next s :=
  congrArg Host.Outcome.next (if_neg hinvalid)

theorem execRows_append {xs ys : List Instr} {s t : State} (h : execRows xs s = .next t) :
    execRows (xs ++ ys) s = execRows ys t := by
  induction xs generalizing s with
  | nil =>
    cases h
    rfl
  | cons row xs ih =>
    obtain ⟨u, hu⟩ := exec_answers_next row s
    rw [execRows_cons hu] at h
    rw [List.cons_append, execRows_cons hu, ih h]

/-- The row a digit byte selects is what the digit decoder carries out for it (R90). -/
theorem exec_decodeDigit_runDigit {cfg : Config} {s : State} (hcfg : s.cfg = cfg) (pos : Fin 4) (db : Byte) :
    exec (decodeDigit cfg pos db) s = .next (runDigit pos db s) := by
  rw [← hcfg, exec_decodeDigit, runDigit_eq]

@[simp] theorem runDigit_cfg (pos : Fin 4) (db : Byte) (s : State) : (runDigit pos db s).cfg = s.cfg := by
  rw [runDigit_eq, putDigit_cfg]

theorem execRows_digits (F : Frame) (s : State) :
    execRows ([0, 1, 2, 3].map (fun i => decodeDigit s.cfg i (digitByte s.cfg F i))) s = .next (decodeDigits F s) := by
  simp only [List.map_cons, List.map_nil, decodeDigits, runDigit_cfg]
  rw [execRows_cons (exec_decodeDigit_runDigit (by simp) ..), execRows_cons (exec_decodeDigit_runDigit (by simp) ..),
    execRows_cons (exec_decodeDigit_runDigit (by simp) ..), execRows_cons (exec_decodeDigit_runDigit (by simp) ..)]
  rfl

theorem execRows_labels (F : Frame) (s : State) :
    execRows ([0, 1, 2, 3, 4].map (fun g => decodeLabel g (labelByte s.cfg F g))) s = .next (decodeLabels F s) := rfl

@[simp] theorem decodeDigits_cfg (F : Frame) (s : State) : (decodeDigits F s).cfg = s.cfg := by
  rw [decodeDigits_eq]

@[simp] theorem decodeDigits_inputs (F : Frame) (s : State) : (decodeDigits F s).inputs = s.inputs := by
  rw [decodeDigits_eq]

@[simp] theorem decodeLabels_cfg (F : Frame) (s : State) : (decodeLabels F s).cfg = s.cfg := rfl

@[simp] theorem decodeLabels_inputs (F : Frame) (s : State) : (decodeLabels F s).inputs = s.inputs := rfl

/-- The value fields, the timestamp and the pulse, as one record (R105, R106, R125, R127). -/
theorem present_classify_eq (t : State) : present (classify t) = { t with
    outValid := true
    out := { t.out with
      numeric := numericOf t.out.digCode t.out.digDp
      mant := if numericOf t.out.digCode t.out.digDp then BitVec.ofNat 14 (mantissaOf t.out.digCode) else 0
      scale := if numericOf t.out.digCode t.out.digDp then BitVec.ofNat 3 (scaleOf t.out.digCode t.out.digDp) else 0
      ts := (port t).now % 2 ^ t.cfg.tsW } } := rfl

/-- The rows that a frame's bytes select, run in order, are the two decoders (R90, R115). -/
theorem execRows_frameRows (F : Frame) (s : State) :
    execRows (frameRows s.cfg F) s = .next (decodeLabels F (decodeDigits F s)) := by
  have hlabels := execRows_labels F (decodeDigits F s)
  rw [decodeDigits_cfg] at hlabels
  rw [frameRows, execRows_append (execRows_digits F s), hlabels]

/-- A byte changed at another offset is not read. -/
theorem byteAt_set_of_ne {F : Frame} {i j : Nat} (b : Byte) (hij : i ≠ j) : byteAt (F.set j b) i = byteAt F i := by
  simp only [byteAt, List.getD_eq_getElem?_getD, List.getElem?_set_ne hij.symm]

theorem readingOf_congr {cfg : Config} {F G : Frame} (now : Nat) (hdigits : ∀ i, digitByte cfg F i = digitByte cfg G i)
    (hlabels : ∀ g, labelByte cfg F g = labelByte cfg G g) : readingOf cfg F now = readingOf cfg G now := by
  simp only [readingOf, hdigits, hlabels]

end Machine

/-- Settles O14: at full length the two header bytes make the frame valid, and Decode(F) writes `readingOf`, whose fields
are those written out. -/
theorem valAcceptFormsOneReading : Obligations.ValAcceptFormsOneReading := by
  intro s F hlen h0 h1
  exact exec_valAccept_of_validFrame (validFrame_iff.mpr ⟨hlen, h0, h1⟩)

/-- Settles O16: the decoded rows lead to the state on which Decode(F) computes the value and presents. -/
theorem valAcceptRunsDecodedRows : Obligations.ValAcceptRunsDecodedRows := by
  intro s F hvalid
  refine ⟨?_, _, execRows_frameRows F s, ?_⟩
  · rw [decode_frame_eq_of_validFrame (validFrame_iff.mp hvalid).1, if_pos hvalid]
  · have hports : port (decodeLabels F (decodeDigits F s)) = port s :=
      port_congr _ _ (by rw [decodeLabels_inputs, decodeDigits_inputs])
    have haccept : exec (.valAccept F) s = .next (decodeReading F s) := congrArg Host.Outcome.next (if_pos hvalid)
    rw [haccept, decodeReading, present_classify_eq, hports, decodeLabels_cfg, decodeDigits_cfg]

/-- Settles O32: a byte that is neither header, digit nor label is read neither by the validity condition nor by the
decoders. -/
theorem unassignedBytesAreIgnored : Obligations.UnassignedBytesAreIgnored := by
  intro s F j b h0 h1 hdigit hlabel
  have hsame : ∀ i, i ≠ j → byteAt (F.set j b) i = byteAt F i := fun i => byteAt_set_of_ne b
  have hvalidEq : validFrame s.cfg (F.set j b) = validFrame s.cfg F := by
    rw [validFrame, List.length_set, hsame 0 h0.symm, hsame 1 h1.symm, validFrame]
  by_cases hvalid : validFrame s.cfg F = true
  · rw [exec_valAccept_of_validFrame hvalid, exec_valAccept_of_validFrame (hvalidEq.trans hvalid),
      readingOf_congr (port s).now (fun i => hsame _ (hdigit i)) (fun g => hsame _ (hlabel g))]
  · rw [exec_valAccept_of_not_validFrame hvalid, exec_valAccept_of_not_validFrame (hvalidEq ▸ hvalid)]

/-! ### `SYNC.DATA` -/

namespace Machine

/-- The buffer after the append of a byte and the overflow drop. -/
def keptAfter (s : State) (b : Byte) : List Byte := if s.cfg.maxBuf ≤ s.cand.length + 1 then s.cand else s.cand ++ [b]

theorem overflow_append_eq_keptAfter (b : Byte) (s : State) :
    overflow (append b s) = { s with cand := keptAfter s b } := by
  rw [overflow_append, keptAfter]
  split <;> rfl

/-- `SYNC.DATA` in every state: the drop takes back the append or does not act, and the emission goes by the length that
is left (R70, D4). -/
theorem exec_syncData_eq (b : Byte) (s : State) :
    exec (.syncData b) s =
      if (keptAfter s b).length = s.cfg.frameLen then exec (decodeFrame s.cfg (keptAfter s b)) { s with cand := [] }
      else .next { s with cand := keptAfter s b } := by
  split
  next full =>
    apply exec_syncData_of_emit_some
    rw [overflow_append_eq_keptAfter, emit_of_length_eq full]
  next other =>
    apply exec_syncData_of_emit_none
    rw [overflow_append_eq_keptAfter, emit_of_length_ne other]

end Machine

/-- Settles O10: another byte than `HDR1` is left to SYNC.DATA, whose effect is `exec_syncData_eq`. -/
theorem syncDataRunsSelectedValidatorRow : Obligations.SyncDataRunsSelectedValidatorRow := by
  intro s b
  refine ⟨fun hb => ?_, exec_syncData_eq b s⟩
  rw [decode_inByte, decodeByte_of_ne_hdr1 hb]

/-- Settles O7: within R23(a) a completed buffer goes to the row its header selects, which at full length is the
validity condition. -/
theorem syncDataAppendsOrCompletesFrame : Obligations.SyncDataAppendsOrCompletesFrame := by
  intro s b hs
  rw [exec_syncData_of_short b (by omega)]
  by_cases full : s.cand.length + 1 = s.cfg.frameLen
  · have hnot : ¬ s.cand.length + 1 < s.cfg.frameLen := by omega
    have hlen : (s.cand ++ [b]).length = s.cfg.frameLen := by simpa using full
    rw [if_pos full, if_neg hnot]
    refine (exec_decodeFrame (s.cand ++ [b]) { s with cand := [] }).trans (congrArg Host.Outcome.next ?_)
    exact (runValidator_eq (s := { s with cand := [] }) hlen).trans (by rw [decodeReading_eq]; rfl)
  · rw [if_neg full, if_pos (by omega)]

/-! ### Digit and label rows -/

/-- Settles O19: no glyph's code means no row but the last; its value is the policy's, and 0xF is never numeric. -/
theorem nomatchRowFollowsPolicy : Obligations.NomatchRowFollowsPolicy := by
  intro s pos
  have hexec : ∀ dp code, exec (.digNomatch pos dp code) s = .next (putDigit pos (unknownCode s.cfg) dp s) :=
    fun _ _ => rfl
  refine ⟨fun b hb => ?select, fun hpolicy => ⟨fun dp code => ⟨?write, rfl⟩, fun gc pts hF => ?fallback⟩,
    fun hpolicy dp code => ?blank⟩
  case select =>
    have hnone : romFind s.cfg (codeOf s.cfg b) = none := romFind_eq_none.mpr fun g hg => hb g hg.symm
    rw [decode_digit, decodeDigit_of_romFind_eq_none pos hnone]
  case write =>
    rw [hexec, unknownCode, hpolicy]
    rfl
  case fallback => exact numericOf_eq_false_of_get pts (.inr hF)
  case blank =>
    rw [hexec, unknownCode, hpolicy]
    rfl

/-- Settles O29: bit by bit, a masked bit had no fragment to contribute. -/
theorem maskingKeepsGroupLabel : Obligations.MaskingKeepsGroupLabel := by
  intro cfg g lb
  unfold groupLabel
  congr 1
  funext k
  rw [BitVec.getLsbD_and, getLsbD_vmask]
  cases fragment cfg g k <;> simp

/-! ### What each row leaves unchanged -/

namespace Machine

theorem exec_of_slot_digit {row : Instr} {pos : Fin 4} (hslot : row.slot = .digit pos) (s : State) :
    ∃ gc dp, exec row s = .next (putDigit pos gc dp s) := by
  cases row <;> cases hslot <;> exact ⟨_, _, rfl⟩

theorem exec_of_slot_label {row : Instr} {g : Fin 5} (hslot : row.slot = .label g) (s : State) :
    ∃ lb, exec row s = .next (putLabel g lb s) := by
  cases row <;> cases hslot <;> exact ⟨_, rfl⟩

/-- The validator rows write output registers only (R86, R87). -/
theorem exec_of_slot_frame {row : Instr} (hslot : row.slot = .frame) (s : State) :
    ∃ v o, exec row s = .next { s with outValid := v, out := o } := by
  cases row <;> cases hslot
  case valAccept F =>
    by_cases hvalid : validFrame s.cfg F = true
    · exact ⟨_, _, exec_valAccept_of_validFrame hvalid⟩
    · exact ⟨_, _, exec_valAccept_of_not_validFrame hvalid⟩
  case valReject F => exact ⟨_, _, rfl⟩

theorem decodeFrame_slot (cfg : Config) (F : Frame) : (decodeFrame cfg F).slot = .frame := by
  unfold decodeFrame
  split <;> rfl

/-- The SYNC rows write the buffer and, through the validator, output registers (R43, R70). -/
theorem exec_of_slot_inByte {row : Instr} (hslot : row.slot = .inByte) (s : State) :
    ∃ c v o, exec row s = .next { s with cand := c, outValid := v, out := o } := by
  cases row <;> cases hslot
  case syncHdr => exact ⟨_, _, _, exec_syncHdr s⟩
  case syncData b =>
    rw [exec_syncData_eq]
    split
    · obtain ⟨v, o, h⟩ := exec_of_slot_frame (decodeFrame_slot s.cfg (keptAfter s b)) { s with cand := [] }
      exact ⟨_, _, _, h⟩
    · exact ⟨_, _, _, rfl⟩

theorem exec_cfg_inputs {row : Instr} {s t : State} (h : exec row s = .next t) :
    t.cfg = s.cfg ∧ t.inputs = s.inputs := by
  cases hslot : row.slot with
  | inByte =>
    obtain ⟨_, _, _, hexec⟩ := exec_of_slot_inByte hslot s
    cases hexec.symm.trans h
    exact ⟨rfl, rfl⟩
  | frame =>
    obtain ⟨_, _, hexec⟩ := exec_of_slot_frame hslot s
    cases hexec.symm.trans h
    exact ⟨rfl, rfl⟩
  | digit pos =>
    obtain ⟨_, _, hexec⟩ := exec_of_slot_digit hslot s
    cases hexec.symm.trans h
    exact ⟨rfl, rfl⟩
  | label g =>
    obtain ⟨_, hexec⟩ := exec_of_slot_label hslot s
    cases hexec.symm.trans h
    exact ⟨rfl, rfl⟩

theorem exec_cand_of_slot_ne_inByte {row : Instr} {s t : State} (hslot : row.slot ≠ .inByte)
    (h : exec row s = .next t) : t.cand = s.cand := by
  cases hrow : row.slot with
  | inByte => exact absurd hrow hslot
  | frame =>
    obtain ⟨_, _, hexec⟩ := exec_of_slot_frame hrow s
    cases hexec.symm.trans h
    rfl
  | digit pos =>
    obtain ⟨_, _, hexec⟩ := exec_of_slot_digit hrow s
    cases hexec.symm.trans h
    rfl
  | label g =>
    obtain ⟨_, hexec⟩ := exec_of_slot_label hrow s
    cases hexec.symm.trans h
    rfl

end Machine

/-- Settles O36: a digit row is one `putDigit` and a label row one `putLabel`, which write their own register alone. -/
theorem rowsChangeOnlyTheirRegisters : Obligations.RowsChangeOnlyTheirRegisters := by
  intro row s t h
  refine ⟨fun hslot => exec_cand_of_slot_ne_inByte hslot h, fun pos hslot => ?digit, fun g hslot => ?label⟩
  case digit =>
    obtain ⟨gc, dp, hexec⟩ := exec_of_slot_digit hslot s
    cases hexec.symm.trans h
    refine ⟨rfl, fun j hj => ⟨?_, ?_⟩, rfl, rfl, rfl, rfl, rfl⟩
    · rw [putDigit_digCode_get, if_neg hj]
    · rw [putDigit_digDp_get, if_neg hj]
  case label =>
    obtain ⟨lb, hexec⟩ := exec_of_slot_label hslot s
    cases hexec.symm.trans h
    refine ⟨rfl, fun j hj => ?_, rfl, rfl, rfl, rfl, rfl, rfl⟩
    rw [putLabel_lbl_get, if_neg hj]

end Sys2Proof
end

section
/-! SUPPORT and PROOF. One edge: what it answers, by the kind of edge (R130, R131, R144, R160), and what an accepted byte
does to a buffer within R23(a) (R70, R80, R133). -/

namespace Sys2Proof

open Machine

namespace Machine

/-- The state after an edge that accepts a byte, from what the transaction-level step answered: the new buffer, and the
reading presented, or the last one kept (R131, R133). -/
def afterByte (s : State) (r : List Byte × Option Reading) : State :=
  { s with cand := r.1, outValid := r.2.isSome, out := r.2.getD s.out, inputs := s.inputs.tail }

@[simp] theorem afterByte_cfg (s : State) (r : List Byte × Option Reading) : (afterByte s r).cfg = s.cfg := rfl
@[simp] theorem afterByte_cand (s : State) (r : List Byte × Option Reading) : (afterByte s r).cand = r.1 := rfl
@[simp] theorem afterByte_outValid (s : State) (r : List Byte × Option Reading) :
    (afterByte s r).outValid = r.2.isSome := rfl
@[simp] theorem afterByte_out (s : State) (r : List Byte × Option Reading) : (afterByte s r).out = r.2.getD s.out := rfl
@[simp] theorem afterByte_inputs (s : State) (r : List Byte × Option Reading) :
    (afterByte s r).inputs = s.inputs.tail := rfl

/-! ### The three kinds of edge -/

theorem step_of_edge_reset {s : State} (h : edgeOf (port s) = .reset) : step s = .next (advance (resetEdge s)) := by
  rw [step, h]

theorem step_of_edge_idle {s : State} (h : edgeOf (port s) = .idle) : step s = .next (advance (beginEdge s)) := by
  rw [step, h]

theorem step_of_edge_byte {s : State} {b : Byte} {now : Nat} (h : edgeOf (port s) = .byte b now) :
    step s = .next (afterByte s (transactionStep s.cfg s.cand b now)) := by
  simp only [step_eq, h]
  rcases transactionStep s.cfg s.cand b now with ⟨c, _ | r⟩ <;> rfl

/-- Everything that one edge can do. -/
theorem step_cases {s t : State} (h : step s = .next t) :
    (edgeOf (port s) = .reset ∧ t = advance (resetEdge s)) ∨
    (edgeOf (port s) = .idle ∧ t = advance (beginEdge s)) ∨
    ∃ b now, edgeOf (port s) = .byte b now ∧ t = afterByte s (transactionStep s.cfg s.cand b now) := by
  cases hedge : edgeOf (port s) with
  | reset =>
    cases (step_of_edge_reset hedge).symm.trans h
    exact .inl ⟨rfl, rfl⟩
  | idle =>
    cases (step_of_edge_idle hedge).symm.trans h
    exact .inr (.inl ⟨rfl, rfl⟩)
  | byte b now =>
    cases (step_of_edge_byte hedge).symm.trans h
    exact .inr (.inr ⟨b, now, rfl, rfl⟩)

theorem step_of_byte {s : State} {p : PortIn} {rest : List PortIn} (hin : s.inputs = p :: rest) (hrst : p.rst = false)
    (hvalid : p.inValid = true) : step s = .next (afterByte s (transactionStep s.cfg s.cand p.inData p.now)) := by
  apply step_of_edge_byte
  rw [port_cons hin, edgeOf_byte hrst hvalid]

theorem step_of_idle {s : State} {p : PortIn} {rest : List PortIn} (hin : s.inputs = p :: rest) (hrst : p.rst = false)
    (hvalid : p.inValid = false) : step s = .next (advance (beginEdge s)) := by
  apply step_of_edge_idle
  rw [port_cons hin, edgeOf_idle hrst hvalid]

theorem step_cfg_inputs {s t : State} (h : step s = .next t) : t.cfg = s.cfg ∧ t.inputs = s.inputs.tail := by
  obtain ⟨-, rfl⟩ | ⟨-, rfl⟩ | ⟨b, now, -, rfl⟩ := step_cases h <;> exact ⟨rfl, rfl⟩

/-! ### The transaction-level step -/

/-- The magic byte leaves no trace of the buffer (R71, R77). -/
theorem transactionStep_hdr1 (cfg : Config) (cand : List Byte) (now : Nat) :
    transactionStep cfg cand cfg.hdr1 now = ([cfg.hdr1], none) := by
  have hlen := cfg.ten_le_frameLen
  have hrestart : transactionStep cfg cand cfg.hdr1 now = transactionStep cfg [] cfg.hdr1 now := by
    simp [transactionStep]
  rw [hrestart, transactionStep_of_short _ _ (by simp), if_pos rfl]

section
variable {cfg : Config} {cand : List Byte} {b : Byte}

theorem transactionStep_append (now : Nat) (hb : b ≠ cfg.hdr1) (hlen : cand.length + 1 < cfg.frameLen) :
    transactionStep cfg cand b now = (cand ++ [b], none) := by
  rw [transactionStep_of_short b now (by omega), if_neg hb, if_neg (by omega)]

theorem transactionStep_complete (now : Nat) (hb : b ≠ cfg.hdr1) (hlen : cand.length + 1 = cfg.frameLen) :
    transactionStep cfg cand b now =
      ([], if validFrame cfg (cand ++ [b]) then some (readingOf cfg (cand ++ [b]) now) else none) := by
  rw [transactionStep_of_short b now (by omega), if_neg hb, if_pos hlen]

/-- The byte completes a valid frame. -/
def Completes (cfg : Config) (cand : List Byte) (b : Byte) : Prop :=
  b ≠ cfg.hdr1 ∧ cand.length + 1 = cfg.frameLen ∧ validFrame cfg (cand ++ [b]) = true

theorem transactionStep_of_completes (now : Nat) (h : Completes cfg cand b) :
    transactionStep cfg cand b now = ([], some (readingOf cfg (cand ++ [b]) now)) := by
  obtain ⟨hb, hlen, hvalid⟩ := h
  rw [transactionStep_complete now hb hlen, if_pos hvalid]

theorem transactionStep_snd_of_not_completes (now : Nat) (hs : cand.length ≤ cfg.frameLen - 1)
    (h : ¬ Completes cfg cand b) : (transactionStep cfg cand b now).2 = none := by
  rw [transactionStep_of_short b now hs]
  split
  · rfl
  next hb =>
    split
    next hlen => exact if_neg fun hvalid => h ⟨hb, hlen, hvalid⟩
    next => rfl

/-- A reading comes from a byte that completes a valid frame, and leaves an empty buffer (R74, R128). -/
theorem of_transactionStep_isSome {now : Nat} (hs : cand.length ≤ cfg.frameLen - 1)
    (h : (transactionStep cfg cand b now).2.isSome = true) :
    Completes cfg cand b ∧ transactionStep cfg cand b now = ([], some (readingOf cfg (cand ++ [b]) now)) := by
  have hcompletes : Completes cfg cand b := by
    by_contra hnot
    rw [transactionStep_snd_of_not_completes now hs hnot] at h
    cases h
  exact ⟨hcompletes, transactionStep_of_completes now hcompletes⟩

theorem phaseOf_append (cand : List Byte) (b : Byte) : phaseOf (cand ++ [b]) = .filling (cand.length + 1) := by
  cases cand with
  | nil => rfl
  | cons c cand => simp [phaseOf]

end

end Machine

/-! ### Statements about one edge -/

/-- Settles O33: the decoder reads the byte as `step` does, and the rest of a byte edge is the definition of `step`. -/
theorem stepRunsTheDecodedByte : Obligations.StepRunsTheDecodedByte := by
  intro s p rest row hin hrst hvalid hrow
  rw [decode_inByte] at hrow
  cases hrow
  rw [step, port_cons hin, edgeOf_byte hrst hvalid]
  rfl

/-- Settles O35: no row writes `cfg` or `inputs`, and every edge only moves on to the next port values. -/
theorem configurationIsNeverWritten : Obligations.ConfigurationIsNeverWritten :=
  ⟨fun _ _ _ => exec_cfg_inputs, fun _ _ => step_cfg_inputs⟩

/-- Settles O40: reset wins over the byte, and leaves the reset values in every register. -/
theorem resetEdgeFromAnyContents : Obligations.ResetEdgeFromAnyContents := by
  intro s p rest hin hrst
  rw [step_of_rst hin hrst, advance, resetEdge_inputs, hin]
  rfl

/-- Settles O42: quiet ports are idle too, so both cases are idle edges. -/
theorem idleEdgeKeepsCandidate : Obligations.IdleEdgeKeepsCandidate := by
  rintro s (⟨p, rest, hin, hrst, hvalid⟩ | hin)
  · exact step_of_idle hin hrst hvalid
  · have hport : port s = PortIn.quiet := by rw [port, hin, List.headD_nil]
    exact step_of_edge_idle (hport ▸ rfl)

/-- Settles O43: the reset values are written in `State.resetWith`; the hardware's configuration is a stated one. -/
theorem resetRegisterValues : Obligations.ResetRegisterValues := ⟨rfl, rfl, rfl, rfl, rfl⟩

/-- Settles O13: at the magic byte the transaction-level step does not read the buffer. -/
theorem restartForgetsCandidate : Obligations.RestartForgetsCandidate := by
  intro s c p rest hin hrst hvalid hdata
  have hstep : ∀ c, step { s with cand := c } = .next (afterByte { s with cand := c } ([s.cfg.hdr1], none)) := by
    intro c
    rw [step_of_byte (s := { s with cand := c }) hin hrst hvalid, hdata, transactionStep_hdr1]
  exact (hstep c).trans (hstep s.cand).symm

/-- Settles O12: the three cases of the step on a short buffer are the rows of the table. -/
theorem sequencingTableOfPhases : Obligations.SequencingTableOfPhases := by
  intro s t p rest hin hrst hvalid hs hstep
  have hlen := s.cfg.ten_le_frameLen
  cases (step_of_byte hin hrst hvalid).symm.trans hstep
  rw [afterByte_cand]
  by_cases hb : p.inData = s.cfg.hdr1
  · rw [hb, transactionStep_hdr1, if_pos rfl]
    rfl
  · rw [if_neg hb]
    by_cases hfull : s.cand.length + 1 = s.cfg.frameLen
    · rw [transactionStep_complete _ hb hfull]
      cases hcand : s.cand with
      | nil => simp [hcand] at hfull; omega
      | cons c cand =>
        have hlast : cand.length + 1 = s.cfg.frameLen - 1 := by simp [hcand] at hfull; omega
        simp [phaseOf, hlast]
    · rw [transactionStep_append _ hb (by omega), phaseOf_append]
      cases hcand : s.cand with
      | nil => rfl
      | cons c cand =>
        have hmore : cand.length + 1 ≠ s.cfg.frameLen - 1 := by simp [hcand] at hfull; omega
        simp [phaseOf, hmore]

/-- Settles O39: with reset low, a presented reading is that of a completing byte, and any other edge keeps the last
one. -/
theorem readingPresentedExactlyOnCompletion : Obligations.ReadingPresentedExactlyOnCompletion := by
  intro s t p rest hin hrst hs hstep
  by_cases hvalid : p.inValid = true
  · cases (step_of_byte hin hrst hvalid).symm.trans hstep
    rw [afterByte_outValid, afterByte_out]
    by_cases hcompletes : Completes s.cfg s.cand p.inData
    · rw [if_pos ⟨hvalid, hcompletes⟩, transactionStep_of_completes _ hcompletes]
      exact ⟨rfl, rfl⟩
    · rw [if_neg fun h => hcompletes h.2, transactionStep_snd_of_not_completes _ hs hcompletes]
      exact ⟨rfl, rfl⟩
  · cases (step_of_idle hin hrst (Bool.eq_false_iff.mpr hvalid)).symm.trans hstep
    rw [if_neg fun h => hvalid h.1]
    exact ⟨rfl, rfl⟩

/-- Settles O50: two bytes short of a frame no byte completes one, whatever the buffer holds. -/
theorem candidateIsHiddenUntilEmission : Obligations.CandidateIsHiddenUntilEmission := by
  intro s c hs hc
  cases hedge : edgeOf (port s) with
  | reset => exact ⟨_, _, step_of_edge_reset hedge, step_of_edge_reset hedge, rfl, rfl, rfl, rfl⟩
  | idle => exact ⟨_, _, step_of_edge_idle hedge, step_of_edge_idle hedge, rfl, rfl, rfl, rfl⟩
  | byte b now =>
    have hnone : ∀ cand : List Byte, cand.length + 1 < s.cfg.frameLen →
        (transactionStep s.cfg cand b now).2 = none := by
      intro cand hcand
      exact transactionStep_snd_of_not_completes now (by omega) fun ⟨_, hfull, _⟩ => by omega
    refine ⟨_, _, step_of_edge_byte hedge, step_of_edge_byte (s := { s with cand := c }) hedge, ?_, ?_, rfl, rfl⟩
    · rw [afterByte_outValid, afterByte_outValid, hnone c hc, hnone s.cand hs]
    · rw [afterByte_out, afterByte_out, hnone c hc, hnone s.cand hs]

end Sys2Proof
end

section
/-! SUPPORT and PROOF. The invariant (R23, R28, R59, R105, R106, R121): it holds after reset and every edge keeps it, and
what it says of the frames that are emitted and read (R46, R79, R167). -/

namespace Sys2Proof

open Machine

namespace Machine

/-! ### The output registers -/

/-- The part of the invariant that is about the output registers alone. -/
structure Reading.Sound (cfg : Config) (r : Reading) : Prop where
  legal : ∀ i, legalCode (r.digCode.get i) = true
  range : r.mant.toNat ≤ 9999 ∧ r.scale.toNat ≤ 4
  zeroed : r.numeric = false → r.mant = 0 ∧ r.scale = 0
  masked : ∀ g, r.lbl.get g &&& vmask cfg g = r.lbl.get g
  stamp : r.ts < 2 ^ cfg.tsW

theorem Inv.sound {s : State} (h : Inv s) : s.out.Sound s.cfg :=
  ⟨h.legal, h.range, h.zeroed, h.masked, h.stamp⟩

theorem Reading.zero_sound (cfg : Config) : Reading.zero.Sound cfg where
  legal := by decide
  range := by decide
  zeroed := by decide
  masked g := by
    have hzero : ∀ g, Reading.zero.lbl.get g = 0 := by decide
    rw [hzero]
    exact BitVec.zero_and
  stamp := Nat.two_pow_pos _

theorem readingOf_sound (cfg : Config) (F : Frame) (now : Nat) : (readingOf cfg F now).Sound cfg where
  legal i := by rw [readingOf_digCode_get, legalCode_romDig]
  range := by
    rw [readingOf_mant_toNat, readingOf_scale_toNat]
    have hmant := mantissaOf_le (readingOf cfg F now).digCode
    have hscale := scaleOf_le (readingOf cfg F now).digCode (readingOf cfg F now).digDp
    split <;> omega
  zeroed hnumeric := by
    constructor <;> apply BitVec.eq_of_toNat_eq
    · rw [readingOf_mant_toNat, hnumeric]
      rfl
    · rw [readingOf_scale_toNat, hnumeric]
      rfl
  masked g := by rw [readingOf_lbl_get, BitVec.and_assoc, BitVec.and_self]
  stamp := Nat.mod_lt _ (Nat.two_pow_pos _)

/-! ### The buffer -/

theorem hdr1_notMem_tail_append {cfg : Config} {cand : List Byte} {b : Byte} (hcand : cfg.hdr1 ∉ cand.tail)
    (hb : b ≠ cfg.hdr1) : cfg.hdr1 ∉ (cand ++ [b]).tail := by
  cases cand with
  | nil => simp
  | cons c cand =>
    rw [List.cons_append, List.tail_cons, List.mem_append, List.mem_singleton]
    rintro (h | h)
    · exact hcand h
    · exact hb h.symm

theorem transactionStep_fst_short {cfg : Config} {cand : List Byte} (b : Byte) (now : Nat)
    (hs : cand.length ≤ cfg.frameLen - 1) : (transactionStep cfg cand b now).1.length ≤ cfg.frameLen - 1 := by
  have hlen := cfg.ten_le_frameLen
  rw [transactionStep_of_short b now hs]
  split
  · rw [List.length_singleton]
    omega
  · split
    · exact Nat.zero_le _
    · rw [List.length_append, List.length_singleton]
      omega

theorem transactionStep_fst_magicFirst {cfg : Config} {cand : List Byte} (b : Byte) (now : Nat)
    (hs : cand.length ≤ cfg.frameLen - 1) (hcand : cfg.hdr1 ∉ cand.tail) :
    cfg.hdr1 ∉ (transactionStep cfg cand b now).1.tail := by
  rw [transactionStep_of_short b now hs]
  split
  · simp
  next hb =>
    split
    · simp
    · exact hdr1_notMem_tail_append hcand hb

/-! ### The invariant -/

/-- In a cycle without a pulse, the buffer and the registers are all there is to the invariant. -/
theorem inv_of_not_outValid {s : State} (hquiet : s.outValid = false) (hshort : s.cand.length ≤ s.cfg.frameLen - 1)
    (hmagic : s.cfg.hdr1 ∉ s.cand.tail) (hsound : s.out.Sound s.cfg) : Inv s where
  short := hshort
  magicFirst := hmagic
  pulseEmpty h := by simp [hquiet] at h
  legal := hsound.legal
  range := hsound.range
  zeroed := hsound.zeroed
  numericBit h := by simp [hquiet] at h
  masked := hsound.masked
  stamp := hsound.stamp

/-- An empty buffer and a frame's reading meet the invariant, presented or not. -/
theorem inv_of_readingOf {s : State} {F : Frame} {now : Nat} (hcand : s.cand = [])
    (hout : s.out = readingOf s.cfg F now) : Inv s := by
  have hsound : s.out.Sound s.cfg := hout ▸ readingOf_sound s.cfg F now
  constructor
  case short => simp [hcand]
  case magicFirst => simp [hcand]
  case pulseEmpty => exact fun _ => hcand
  case numericBit => exact fun _ => by rw [hout, readingOf_numeric]
  case legal => exact hsound.legal
  case range => exact hsound.range
  case zeroed => exact hsound.zeroed
  case masked => exact hsound.masked
  case stamp => exact hsound.stamp

theorem inv_resetEdge (s : State) : Inv (advance (resetEdge s)) :=
  inv_of_not_outValid rfl (Nat.zero_le _) (by simp) (Reading.zero_sound s.cfg)

theorem inv_resetWith (cfg : Config) (ps : List PortIn) : Inv (State.resetWith cfg ps) :=
  inv_of_not_outValid rfl (Nat.zero_le _) (by simp) (Reading.zero_sound cfg)

theorem inv_beginEdge {s : State} (h : Inv s) : Inv (advance (beginEdge s)) :=
  inv_of_not_outValid rfl h.short h.magicFirst h.sound

theorem inv_afterByte {s : State} (h : Inv s) (b : Byte) (now : Nat) :
    Inv (afterByte s (transactionStep s.cfg s.cand b now)) := by
  by_cases hcompletes : Completes s.cfg s.cand b
  · rw [transactionStep_of_completes now hcompletes]
    exact inv_of_readingOf (F := s.cand ++ [b]) (now := now) rfl rfl
  · have hnone := transactionStep_snd_of_not_completes now h.short hcompletes
    refine inv_of_not_outValid ?_ (transactionStep_fst_short b now h.short)
      (transactionStep_fst_magicFirst b now h.short h.magicFirst) ?_
    · rw [afterByte_outValid, hnone]
      rfl
    · rw [afterByte_out, hnone]
      exact h.sound

/-! ### What is emitted and read -/

/-- A reading that an edge presents is that of a valid frame without `HDR1` after the first byte (R79, R131). -/
theorem exists_frame_of_presents {s t : State} (hinv : Inv s) (hstep : step s = .next t) (hvalid : t.outValid = true) :
    ∃ F now, t.out = readingOf s.cfg F now ∧ validFrame s.cfg F = true ∧ s.cfg.hdr1 ∉ F.tail := by
  obtain ⟨-, rfl⟩ | ⟨-, rfl⟩ | ⟨b, now, -, rfl⟩ := step_cases hstep
  · cases hvalid
  · cases hvalid
  · obtain ⟨⟨hb, -, hframe⟩, hr⟩ := of_transactionStep_isSome hinv.short hvalid
    refine ⟨s.cand ++ [b], now, ?_, hframe, hdr1_notMem_tail_append hinv.magicFirst hb⟩
    rw [afterByte_out, hr, Option.getD_some]

theorem byteAt_mem_tail {F : Frame} {j : Nat} (hpos : j ≠ 0) (hj : j < F.length) : byteAt F j ∈ F.tail := by
  obtain ⟨k, rfl⟩ := Nat.exists_eq_succ_of_ne_zero hpos
  cases F with
  | nil => simp at hj
  | cons c F =>
    have hk : k < F.length := by simpa using hj
    simp [byteAt, hk]

/-- A later byte of a valid frame that was emitted is not `HDR1`. -/
theorem byteAt_ne_hdr1 {cfg : Config} {F : Frame} {j : Nat} (hvalid : validFrame cfg F = true)
    (hmagic : cfg.hdr1 ∉ F.tail) (hpos : j ≠ 0) (hj : j < cfg.frameLen) : byteAt F j ≠ cfg.hdr1 := by
  obtain ⟨hlen, -⟩ := validFrame_iff.mp hvalid
  exact fun h => hmagic (h ▸ byteAt_mem_tail hpos (hlen.symm ▸ hj))

/-- A glyph's code is its place in `DIGIT_ROM` (R55). -/
theorem glyphCode_toNat (g : Glyph) : (glyphCode g).toNat = g.index.val := by
  cases g <;> rfl

theorem glyphCode_injective {g g' : Glyph} (h : glyphCode g = glyphCode g') : g = g' := by
  apply glyph_index_injective
  rw [Fin.ext_iff, ← glyphCode_toNat, h, glyphCode_toNat]

theorem glyphCode_ne_unknown (g : Glyph) : glyphCode g ≠ 0xF := by
  cases g <;> decide

/-- Under NOMATCH a glyph code in the ROM is that glyph's (R25, D6). -/
theorem romFind_of_romDig_eq_glyphCode {cfg : Config} {x : Code7} {g : Glyph} (hpolicy : cfg.unknownDigit = .noMatch)
    (h : romDig cfg x = glyphCode g) : romFind cfg x = some g := by
  cases hfind : romFind cfg x with
  | some g' =>
    rw [romDig_of_find hfind] at h
    rw [glyphCode_injective h]
  | none =>
    rw [romDig_of_none hfind, unknownCode, hpolicy] at h
    exact absurd h.symm (glyphCode_ne_unknown g)

/-- Two bytes short of a frame, an edge presents nothing and adds at most one byte. -/
theorem step_of_room {s t : State} (hroom : s.cand.length + 1 < s.cfg.frameLen) (hstep : step s = .next t) :
    t.outValid = false ∧ t.cand.length ≤ s.cand.length + 1 := by
  obtain ⟨-, rfl⟩ | ⟨-, rfl⟩ | ⟨b, now, -, rfl⟩ := step_cases hstep
  · exact ⟨rfl, Nat.zero_le _⟩
  · exact ⟨rfl, Nat.le_succ _⟩
  · rw [afterByte_outValid, afterByte_cand]
    by_cases hb : b = s.cfg.hdr1
    · rw [hb, transactionStep_hdr1]
      exact ⟨rfl, Nat.le_add_left ..⟩
    · rw [transactionStep_append now hb hroom]
      exact ⟨rfl, List.length_append.le⟩

/-- With room for `k` more bytes before the last, `k` edges present nothing. -/
theorem presented_eq_nil_of_room {k : Nat} {s : State} (hroom : s.cand.length + k < s.cfg.frameLen) :
    presented k s = [] := by
  induction k generalizing s with
  | zero => rfl
  | succ k ih =>
    obtain ⟨t, hstep⟩ := step_answers_next s
    obtain ⟨hquiet, hgrow⟩ := step_of_room (by omega) hstep
    obtain ⟨hcfg, -⟩ := step_cfg_inputs hstep
    rw [presented_succ hstep, ih (by rw [hcfg]; omega), hquiet]
    rfl

end Machine

/-- Settles O37: the three kinds of edge, each by its own lemma. -/
theorem everyStepKeepsInvariant : Obligations.EveryStepKeepsInvariant := by
  intro s t hinv hstep
  obtain ⟨-, rfl⟩ | ⟨-, rfl⟩ | ⟨b, now, -, rfl⟩ := step_cases hstep
  · exact inv_resetEdge s
  · exact inv_beginEdge hinv
  · exact inv_afterByte hinv b now

/-- Settles O38: an empty buffer and zero registers meet every clause. -/
theorem resetMeetsInvariant : Obligations.ResetMeetsInvariant :=
  fun cfg ps => ⟨inv_resetWith cfg ps, inv_resetWith Config.hw []⟩

/-- Settles O11: the emitted frame is the buffer with the byte appended; the buffer holds no later `HDR1`, and the byte
is none. -/
theorem emittedFrameHasMagicOnlyFirst : Obligations.EmittedFrameHasMagicOnlyFirst := by
  intro s t b F hinv hb hemit
  rw [overflow_append_of_short b hinv.short] at hemit
  by_cases hfull : (append b s).cand.length = (append b s).cfg.frameLen
  · rw [emit_of_length_eq hfull] at hemit
    cases hemit
    exact ⟨hfull, hdr1_notMem_tail_append hinv.magicFirst hb⟩
  · rw [emit_of_length_ne hfull] at hemit
    cases hemit

/-- Settles O51: the second byte of a frame that is read would be `HDR2`, so a later `HDR1`. -/
theorem equalHeaderBytesMeanNoReading : Obligations.EqualHeaderBytesMeanNoReading := by
  intro s t hinv hequal hstep
  rw [Bool.eq_false_iff]
  intro hpresents
  obtain ⟨F, now, -, hvalid, hmagic⟩ := exists_frame_of_presents hinv hstep hpresents
  obtain ⟨-, -, hsecond⟩ := validFrame_iff.mp hvalid
  have hlen := s.cfg.ten_le_frameLen
  exact byteAt_ne_hdr1 hvalid hmagic one_ne_zero (by omega) (hsecond.trans hequal.symm)

/-- Settles O52: the digit registers give back the digit byte, which would be `HDR1` after the first byte of a frame that
is read. -/
theorem magicDigitByteIsNeverRead : Obligations.MagicDigitByteIsNeverRead := by
  rintro s t pos g dp hinv hpolicy hoff hmagicByte hstep hpresents ⟨hcode, hdp⟩
  obtain ⟨F, now, hout, hvalid, hmagic⟩ := exists_frame_of_presents hinv hstep hpresents
  rw [hout, readingOf_digCode_get] at hcode
  rw [hout, readingOf_digDp_get] at hdp
  have hbyte : glyphByte s.cfg dp g = digitByte s.cfg F pos :=
    hdp ▸ glyphByte_of_romFind (romFind_of_romDig_eq_glyphCode hpolicy hcode)
  exact byteAt_ne_hdr1 hvalid hmagic hoff (s.cfg.digitOff_lt pos) (hbyte.symm.trans hmagicByte)

/-- Settles O49: the pulse means an empty buffer, which takes `FRAME_LEN` edges to complete. -/
theorem readingsAreFrameLengthApart : Obligations.ReadingsAreFrameLengthApart := by
  intro s k hinv hpresents hk
  refine presented_eq_nil_of_room ?_
  rwa [hinv.pulseEmpty hpresents, List.length_nil, Nat.zero_add]

end Sys2Proof
end

section
/-! SUPPORT and PROOF. The configuration checks written out (R9), and the hardware realization of the buffer (R24, R75). -/

namespace Sys2Proof

open Machine

/-! ### The checks of R9 -/

theorem toList_eq_ofFn_get {α : Type} {n : Nat} (v : Vector α n) : v.toList = List.ofFn v.get :=
  List.ext_getElem (by simp) fun i _ _ => by simp [Vector.get]

theorem forall_mem_toList_iff {α : Type} {n : Nat} {v : Vector α n} {p : α → Prop} :
    (∀ x ∈ v.toList, p x) ↔ ∀ i, p (v.get i) := by
  rw [toList_eq_ofFn_get, List.forall_mem_ofFn_iff]

theorem nodup_toList_iff {α : Type} {n : Nat} {v : Vector α n} :
    v.toList.Nodup ↔ ∀ i j, v.get i = v.get j → i = j := by
  rw [toList_eq_ofFn_get, List.nodup_ofFn]
  rfl

theorem ConfigData.wf_iff (d : ConfigData) :
    d.wf = true ↔
      10 ≤ d.frameLen ∧ d.frameLen + 1 ≤ d.maxBuf ∧ (∀ i, d.digitOff.get i < d.frameLen) ∧
      (∀ g, d.labelOff.get g < d.frameLen) ∧
      ((∀ i j, d.digitRom.get i = d.digitRom.get j → i = j) ∧ ∀ i, (d.digitRom.get i).toNat < 0x80) ∧
      (d.vocab.length = 5 ∧ ∀ row ∈ d.vocab, row.length = 8) := by
  simp only [ConfigData.wf, ConfigCheck.all, ConfigCheck.passes, List.all_cons, List.all_nil, Bool.and_true,
    Bool.and_eq_true, decide_eq_true_eq, List.all_eq_true, forall_mem_toList_iff, nodup_toList_iff]

theorem Config.ofData_of_wf {d : ConfigData} (h : d.wf = true) : Config.ofData d = .ok ⟨d, h⟩ := dif_pos h

theorem Config.exists_ofData_eq_ok_iff (d : ConfigData) :
    (∃ c, Config.ofData d = .ok c ∧ c.toConfigData = d) ↔ d.wf = true := by
  constructor
  · rintro ⟨c, -, rfl⟩
    exact c.ok
  · exact fun h => ⟨⟨d, h⟩, Config.ofData_of_wf h, rfl⟩

/-- A refusal names the first check that fails, and there is one. -/
theorem Config.passes_eq_false_of_ofData_eq_error {d : ConfigData} {k : ConfigCheck} (h : Config.ofData d = .error k) :
    k.passes d = false := by
  by_cases hwf : d.wf = true
  · rw [Config.ofData_of_wf hwf] at h
    cases h
  · have hfails : (ConfigCheck.all.find? (fun c => !c.passes d)).isSome = true := by
      simpa [ConfigData.wf, List.find?_isSome] using hwf
    obtain ⟨c, hc⟩ := Option.isSome_iff_exists.mp hfails
    rw [Config.ofData, dif_neg hwf, hc] at h
    cases h
    simpa using List.find?_some hc

/-- Settles O45: a configuration is built exactly when all checks pass, and each check is its clause. -/
theorem configurationChecksRefuseByName : Obligations.ConfigurationChecksRefuseByName := by
  intro d
  rw [Config.exists_ofData_eq_ok_iff, ConfigData.wf_iff]
  exact ⟨Iff.rfl, fun k => Config.passes_eq_false_of_ofData_eq_error⟩

/-! ### Cells and fill counter -/

namespace Machine

theorem Realized.fits_iff {cfg : Config} {r : Realized} :
    r.fits cfg = true ↔ r.cells.length = cfg.frameLen - 1 ∧ r.fill ≤ cfg.frameLen - 1 := by
  rw [Realized.fits, Bool.and_eq_true, decide_eq_true_eq, decide_eq_true_eq]

/-- The cell at the counter, filled, is the next byte of the buffer. -/
theorem take_succ_set {cells : List Byte} {n : Nat} (b : Byte) (hn : n < cells.length) :
    (cells.set n b).take (n + 1) = cells.take n ++ [b] := by
  rw [List.take_add_one, List.take_set_of_le (le_refl n), List.getElem?_set_self hn, Option.toList_some]

end Machine

/-- Settles O53: within its cells the realization has a buffer within R23(a), so the overflow drop is not missed, and its
three cases are those of the transaction-level step. -/
theorem realizationDoesTheSame : Obligations.RealizationDoesTheSame := by
  intro cfg r b now hfits
  obtain ⟨hcells, hfill⟩ := Realized.fits_iff.mp hfits
  have hlen := cfg.ten_le_frameLen
  have hcand : r.cand.length = r.fill := by rw [Realized.cand, List.length_take, hcells, min_eq_left hfill]
  rw [transactionStep_of_short b now (hcand ▸ hfill), hcand, realizedStep]
  by_cases hb : b = cfg.hdr1
  · rw [if_pos hb, if_pos hb]
    refine ⟨Realized.fits_iff.mpr ⟨by rw [List.length_set, hcells], by change 1 ≤ _; omega⟩, ?_⟩
    rw [Realized.cand, take_succ_set b (by omega), hb]
    rfl
  · rw [if_neg hb, if_neg hb]
    by_cases hfull : r.fill = cfg.frameLen - 1
    · rw [if_pos hfull, if_pos (show r.fill + 1 = cfg.frameLen by omega)]
      exact ⟨Realized.fits_iff.mpr ⟨hcells, Nat.zero_le _⟩, rfl⟩
    · rw [if_neg hfull, if_neg (show r.fill + 1 ≠ cfg.frameLen by omega)]
      refine ⟨Realized.fits_iff.mpr ⟨by rw [List.length_set, hcells], by change r.fill + 1 ≤ _; omega⟩, ?_⟩
      rw [Realized.cand, take_succ_set b (by omega), Realized.cand]

end Sys2Proof
end

section
/-! SUPPORT and PROOF. Runs: the cycle-level machine against the transaction-level run (R133), noise (R169), a clean frame
from any contents (R165, R166), and a frame written by R63 and read back. -/

namespace Sys2Proof

open Machine

namespace Machine

/-! ### The transaction-level run, one set of port values at a time -/

section
variable (cfg : Config) (cand : List Byte) {p : PortIn} (ps : List PortIn)

theorem transactionRun_of_reset (h : edgeOf p = .reset) :
    transactionRun cfg cand (p :: ps) = transactionRun cfg [] ps := by
  simp only [transactionRun, h]

theorem transactionRun_of_idle (h : edgeOf p = .idle) :
    transactionRun cfg cand (p :: ps) = transactionRun cfg cand ps := by
  simp only [transactionRun, h]

theorem transactionRun_of_byte {b : Byte} {now : Nat} (h : edgeOf p = .byte b now) :
    transactionRun cfg cand (p :: ps) =
      ((transactionRun cfg (transactionStep cfg cand b now).1 ps).1,
        (transactionStep cfg cand b now).2.toList ++ (transactionRun cfg (transactionStep cfg cand b now).1 ps).2) := by
  simp only [transactionRun, h]

end

/-! ### The two levels -/

/-- What the cycle after an edge shows on `out_valid`. -/
def shown (t : State) : List Reading := if t.outValid then [t.out] else []

theorem shown_afterByte (s : State) (r : List Byte × Option Reading) : shown (afterByte s r) = r.2.toList := by
  obtain ⟨c, _ | reading⟩ := r <;> rfl

/-- One edge does what the transaction-level run makes of the port values at its head. -/
theorem transactionRun_cons_of_step {s t : State} {p : PortIn} {rest : List PortIn} (hin : s.inputs = p :: rest)
    (hstep : step s = .next t) (ps : List PortIn) :
    transactionRun s.cfg s.cand (p :: ps) =
      ((transactionRun t.cfg t.cand ps).1, shown t ++ (transactionRun t.cfg t.cand ps).2) := by
  obtain ⟨hedge, rfl⟩ | ⟨hedge, rfl⟩ | ⟨b, now, hedge, rfl⟩ := step_cases hstep <;> rw [port_cons hin] at hedge
  · exact transactionRun_of_reset s.cfg s.cand ps hedge
  · exact transactionRun_of_idle s.cfg s.cand ps hedge
  · rw [transactionRun_of_byte s.cfg s.cand ps hedge, shown_afterByte]
    rfl

/-- The state after a run over the port values `ps`, by the buffer it holds. -/
structure IsAfter (s : State) (cand : List Byte) (rest : List PortIn) (t : State) : Prop where
  cand : t.cand = cand
  inputs : t.inputs = rest
  cfg : t.cfg = s.cfg

/-- The simulation, over any first part of the coming port values (R133). -/
theorem run_matches_transactionRun (ps : List PortIn) {rest : List PortIn} {s : State} (hin : s.inputs = ps ++ rest) :
    presented ps.length s = (transactionRun s.cfg s.cand ps).2 ∧
    ∃ t : State, Host.Core.run core ps.length s = .next t ∧ IsAfter s (transactionRun s.cfg s.cand ps).1 rest t := by
  induction ps generalizing s with
  | nil => exact ⟨rfl, s, rfl, rfl, hin, rfl⟩
  | cons p ps ih =>
    obtain ⟨t, hstep⟩ := step_answers_next s
    obtain ⟨hcfg, hinputs⟩ := step_cfg_inputs hstep
    obtain ⟨hpresented, u, hrun, hafter⟩ := ih (s := t) (by rw [hinputs, hin]; rfl)
    rw [transactionRun_cons_of_step hin hstep, List.length_cons, presented_succ hstep, run_succ hstep, hpresented]
    exact ⟨rfl, u, hrun, hafter.cand, hafter.inputs, hafter.cfg.trans hcfg⟩

/-! ### Noise -/

theorem not_validFrame_of_hdr1_notMem {cfg : Config} {F : Frame} (hF : cfg.hdr1 ∉ F) : ¬ validFrame cfg F = true := by
  intro hvalid
  obtain ⟨hlen, hfirst, -⟩ := validFrame_iff.mp hvalid
  have hten := cfg.ten_le_frameLen
  cases F with
  | nil => simp at hlen; omega
  | cons c F => exact hF (hfirst ▸ List.mem_cons_self)

/-- A byte of noise, from a buffer of noise: no reading, and the count of bytes modulo `FRAME_LEN` (R169). -/
theorem transactionStep_of_noise {cfg : Config} {cand : List Byte} {b : Byte} (now : Nat)
    (hs : cand.length < cfg.frameLen) (hcand : cfg.hdr1 ∉ cand) (hb : b ≠ cfg.hdr1) :
    ∃ cand', transactionStep cfg cand b now = (cand', none) ∧ cfg.hdr1 ∉ cand' ∧
      cand'.length = (cand.length + 1) % cfg.frameLen := by
  have happend : cfg.hdr1 ∉ cand ++ [b] := by
    rw [List.mem_append, List.mem_singleton]
    rintro (h | h)
    · exact hcand h
    · exact hb h.symm
  by_cases hfull : cand.length + 1 = cfg.frameLen
  · refine ⟨[], ?_, List.not_mem_nil, by rw [hfull, Nat.mod_self]; rfl⟩
    rw [transactionStep_complete now hb hfull, if_neg (not_validFrame_of_hdr1_notMem happend)]
  · have hroom : cand.length + 1 < cfg.frameLen := by omega
    refine ⟨cand ++ [b], transactionStep_append now hb hroom, happend, ?_⟩
    rw [Nat.mod_eq_of_lt hroom, List.length_append, List.length_singleton]

theorem transactionRun_of_noise {cfg : Config} {cand : List Byte} {noise : List PortIn}
    (hs : cand.length < cfg.frameLen) (hcand : cfg.hdr1 ∉ cand)
    (hnoise : ∀ p ∈ noise, p.rst = false ∧ p.inValid = true ∧ p.inData ≠ cfg.hdr1) :
    (transactionRun cfg cand noise).2 = [] ∧
      (transactionRun cfg cand noise).1.length = (cand.length + noise.length) % cfg.frameLen := by
  induction noise generalizing cand with
  | nil => exact ⟨rfl, (Nat.mod_eq_of_lt hs).symm⟩
  | cons p noise ih =>
    rw [List.forall_mem_cons] at hnoise
    obtain ⟨⟨hrst, hvalid, hb⟩, hnoise⟩ := hnoise
    obtain ⟨cand', hstep, hcand', hlen'⟩ := transactionStep_of_noise p.now hs hcand hb
    have hs' : cand'.length < cfg.frameLen := hlen' ▸ Nat.mod_lt _ (by omega)
    obtain ⟨hnone, hlast⟩ := ih hs' hcand' hnoise
    rw [transactionRun_of_byte cfg cand noise (edgeOf_byte hrst hvalid), hstep]
    refine ⟨hnone, hlast.trans ?_⟩
    rw [hlen', Nat.mod_add_mod, List.length_cons, Nat.add_assoc, Nat.add_comm 1]

/-! ### A clean frame -/

theorem acceptedBytes_cons (p : PortIn) (ps : List PortIn) :
    acceptedBytes (p :: ps) = acceptedBytes [p] ++ acceptedBytes ps :=
  List.filterMap_append (l := [p]) (l' := ps)

theorem acceptedBytes_append (ps qs : List PortIn) :
    acceptedBytes (ps ++ qs) = acceptedBytes ps ++ acceptedBytes qs := List.filterMap_append

theorem acceptedBytes_of_byte {p : PortIn} (hrst : p.rst = false) (hvalid : p.inValid = true) :
    acceptedBytes [p] = [p.inData] := by
  simp [acceptedBytes, edgeOf_byte hrst hvalid]

theorem acceptedBytes_of_idle {p : PortIn} (hrst : p.rst = false) (hvalid : p.inValid = false) :
    acceptedBytes [p] = [] := by
  simp [acceptedBytes, edgeOf_idle hrst hvalid]

section
variable {cfg : Config} {cand : List Byte} {ps : List PortIn}

/-- Bytes other than `HDR1` that do not complete a frame are all kept, whatever idle edges lie between them. -/
theorem transactionRun_appends (hrst : ∀ p ∈ ps, p.rst = false) (hmagic : cfg.hdr1 ∉ acceptedBytes ps)
    (hlen : cand.length + (acceptedBytes ps).length < cfg.frameLen) :
    (transactionRun cfg cand ps).1 = cand ++ acceptedBytes ps := by
  induction ps generalizing cand with
  | nil => exact (List.append_nil cand).symm
  | cons p ps ih =>
    rw [List.forall_mem_cons] at hrst
    rw [acceptedBytes_cons] at hmagic hlen ⊢
    cases hvalid : p.inValid with
    | false =>
      rw [acceptedBytes_of_idle hrst.1 hvalid, List.nil_append] at hmagic hlen ⊢
      rw [transactionRun_of_idle cfg cand ps (edgeOf_idle hrst.1 hvalid), ih hrst.2 hmagic hlen]
    | true =>
      rw [acceptedBytes_of_byte hrst.1 hvalid, List.singleton_append] at hmagic hlen ⊢
      rw [List.mem_cons, not_or] at hmagic
      rw [List.length_cons] at hlen
      rw [transactionRun_of_byte cfg cand ps (edgeOf_byte hrst.1 hvalid),
        transactionStep_append p.now (Ne.symm hmagic.1) (by omega), ih hrst.2 hmagic.2 (by simp; omega)]
      simp

/-- A first `HDR1` discards any contents, and the bytes after it are kept (R165, R166). -/
theorem transactionRun_restarts {B : List Byte} (hrst : ∀ p ∈ ps, p.rst = false)
    (hbytes : acceptedBytes ps = cfg.hdr1 :: B) (hmagic : cfg.hdr1 ∉ B) (hlen : B.length + 1 < cfg.frameLen) :
    (transactionRun cfg cand ps).1 = cfg.hdr1 :: B := by
  induction ps with
  | nil => cases hbytes
  | cons p ps ih =>
    rw [List.forall_mem_cons] at hrst
    rw [acceptedBytes_cons] at hbytes
    cases hvalid : p.inValid with
    | false =>
      rw [acceptedBytes_of_idle hrst.1 hvalid, List.nil_append] at hbytes
      rw [transactionRun_of_idle cfg cand ps (edgeOf_idle hrst.1 hvalid), ih hrst.2 hbytes]
    | true =>
      rw [acceptedBytes_of_byte hrst.1 hvalid, List.singleton_append, List.cons_eq_cons] at hbytes
      obtain ⟨hfirst, rfl⟩ := hbytes
      rw [transactionRun_of_byte cfg cand ps (edgeOf_byte hrst.1 hvalid), hfirst, transactionStep_hdr1]
      exact transactionRun_appends hrst.2 hmagic (by rw [List.length_singleton]; omega)

end

/-- A valid frame is `HDR1` and a tail, and so is what stands before its last byte. -/
theorem exists_eq_hdr1_cons_of_validFrame {cfg : Config} {G : Frame} {b : Byte}
    (hvalid : validFrame cfg (G ++ [b]) = true) : ∃ B, G = cfg.hdr1 :: B ∧ B.length + 2 = cfg.frameLen := by
  obtain ⟨hlen, hfirst, -⟩ := validFrame_iff.mp hvalid
  have hten := cfg.ten_le_frameLen
  rw [List.length_append, List.length_singleton] at hlen
  cases G with
  | nil => simp at hlen; omega
  | cons c B =>
    have hc : c = cfg.hdr1 := hfirst
    exact ⟨B, by rw [hc], by simpa using hlen⟩

end Machine

/-- Settles O46: the simulation over all port values to come. -/
theorem cycleLevelMatchesTransactionLevel : Obligations.CycleLevelMatchesTransactionLevel := by
  intro s
  obtain ⟨hpresented, t, hrun, hafter⟩ := run_matches_transactionRun s.inputs (List.append_nil s.inputs).symm
  exact ⟨hpresented, t, hrun, hafter.cand, hafter.inputs⟩

/-- Settles O48: the transaction-level run over noise, carried to the machine by the simulation. -/
theorem noiseLeavesRemainderAndNoReading : Obligations.NoiseLeavesRemainderAndNoReading := by
  intro s noise rest hin hcand hnoise
  have hten := s.cfg.ten_le_frameLen
  obtain ⟨hpresented, t, hrun, hafter⟩ := run_matches_transactionRun noise hin
  rw [hcand] at hpresented hafter
  obtain ⟨hnone, hlen⟩ := transactionRun_of_noise (cand := []) (by simp; omega) List.not_mem_nil hnoise
  refine ⟨hpresented.trans hnone, t, hrun, ?_⟩
  rw [hafter.cand, hlen, List.length_nil, Nat.zero_add]

/-- Settles O47: before the last edge the buffer holds all of the frame but its last byte, which then completes it. -/
theorem cleanFrameIsAlwaysDelivered : Obligations.CleanFrameIsAlwaysDelivered := by
  rintro s ps rest last F hin hrst hlastRst hlastValid rfl hvalid hmagic
  have hten := s.cfg.ten_le_frameLen
  rw [acceptedBytes_append, acceptedBytes_of_byte hlastRst hlastValid] at hvalid hmagic ⊢
  obtain ⟨B, hB, hlen⟩ := exists_eq_hdr1_cons_of_validFrame hvalid
  rw [hB, List.cons_append, List.tail_cons, List.mem_append, List.mem_singleton, not_or] at hmagic
  obtain ⟨hBmagic, hlast⟩ := hmagic
  obtain ⟨-, t, hrun, hafter⟩ := run_matches_transactionRun ps (hin.trans (List.append_assoc ..))
  rw [transactionRun_restarts hrst hB hBmagic (by omega), ← hB] at hafter
  have hcompletes : Completes t.cfg t.cand last.inData := by
    rw [hafter.cfg, hafter.cand]
    exact ⟨Ne.symm hlast, by rw [hB, List.length_cons]; omega, hvalid⟩
  have hstep := step_of_byte hafter.inputs hlastRst hlastValid
  rw [transactionStep_of_completes last.now hcompletes] at hstep
  refine ⟨_, (run_add ps.length 1 s t hrun).trans (run_succ hstep), rfl, rfl, ?_, ?_, hafter.cfg⟩
  · rw [afterByte_out, Option.getD_some, hafter.cfg, hafter.cand]
  · rw [afterByte_inputs, hafter.inputs]
    rfl

namespace Machine

/-! ### A frame as R63 writes it -/

/-- Bytes written one after the other, each at its offset. -/
def writeBytes (E : Frame) (ws : List (Nat × Byte)) : Frame := ws.foldl (fun E w => E.set w.1 w.2) E

theorem writeBytes_cons (E : Frame) (w : Nat × Byte) (ws : List (Nat × Byte)) :
    writeBytes E (w :: ws) = writeBytes (E.set w.1 w.2) ws := rfl

theorem length_writeBytes (E : Frame) (ws : List (Nat × Byte)) : (writeBytes E ws).length = E.length := by
  induction ws generalizing E with
  | nil => rfl
  | cons w ws ih => rw [writeBytes_cons, ih, List.length_set]

theorem byteAt_writeBytes_of_notMem {E : Frame} {ws : List (Nat × Byte)} {j : Nat} (hj : j ∉ ws.map Prod.fst) :
    byteAt (writeBytes E ws) j = byteAt E j := by
  induction ws generalizing E with
  | nil => rfl
  | cons w ws ih =>
    rw [List.map_cons, List.mem_cons, not_or] at hj
    rw [writeBytes_cons, ih hj.2, byteAt_set_of_ne _ hj.1]

/-- At distinct offsets every write stays. -/
theorem byteAt_writeBytes_of_mem {E : Frame} {ws : List (Nat × Byte)} {w : Nat × Byte}
    (hnodup : (ws.map Prod.fst).Nodup) (hw : w ∈ ws) (hlt : w.1 < E.length) : byteAt (writeBytes E ws) w.1 = w.2 := by
  induction ws generalizing E with
  | nil => cases hw
  | cons v ws ih =>
    rw [List.map_cons, List.nodup_cons] at hnodup
    rw [writeBytes_cons]
    cases hw with
    | head =>
      rw [byteAt_writeBytes_of_notMem hnodup.1]
      simp [byteAt, hlt]
    | tail _ hw => exact ih hnodup.2 hw (by rwa [List.length_set])

/-- The writes of `FRAME(c0 c1 c2 c3 ; l0 l1 l2 l3 l4 ; fill=XX)`, in the order of R63. -/
def frameWrites (cfg : Config) (c : Vector DigitItem 4) (l : Vector Byte 5) : List (Nat × Byte) :=
  [(0, cfg.hdr1), (1, cfg.hdr2)] ++ (List.finRange 4).map (fun i => (cfg.digitOff.get i, digItemByte cfg (c.get i))) ++
    (List.finRange 5).map (fun g => (cfg.labelOff.get g, l.get g))

section
variable (cfg : Config) (c : Vector DigitItem 4) (l : Vector Byte 5) (fill : Byte)

theorem frameBytes_eq_writeBytes :
    frameBytes cfg c l fill = writeBytes (List.replicate cfg.frameLen fill) (frameWrites cfg c l) := by
  rw [writeBytes, frameWrites, List.foldl_append, List.foldl_append, List.foldl_map, List.foldl_map]
  rfl

theorem map_fst_frameWrites : (frameWrites cfg c l).map Prod.fst = frameOffsets cfg := by
  rw [frameOffsets, toList_eq_ofFn_get, toList_eq_ofFn_get, List.ofFn_eq_map, List.ofFn_eq_map, frameWrites,
    List.map_append, List.map_append, List.map_map, List.map_map]
  rfl

theorem digit_mem_frameWrites (i : Fin 4) :
    (cfg.digitOff.get i, digItemByte cfg (c.get i)) ∈ frameWrites cfg c l :=
  List.mem_append_left _ (List.mem_append_right _ (List.mem_map_of_mem (List.mem_finRange i)))

theorem label_mem_frameWrites (g : Fin 5) : (cfg.labelOff.get g, l.get g) ∈ frameWrites cfg c l :=
  List.mem_append_right _ (List.mem_map_of_mem (List.mem_finRange g))

theorem length_frameBytes : (frameBytes cfg c l fill).length = cfg.frameLen := by
  rw [frameBytes_eq_writeBytes, length_writeBytes, List.length_replicate]

variable {cfg c l fill} (hnodup : (frameOffsets cfg).Nodup)
include hnodup

theorem byteAt_frameBytes {w : Nat × Byte} (hw : w ∈ frameWrites cfg c l) (hlt : w.1 < cfg.frameLen) :
    byteAt (frameBytes cfg c l fill) w.1 = w.2 := by
  rw [frameBytes_eq_writeBytes]
  exact byteAt_writeBytes_of_mem (by rwa [map_fst_frameWrites]) hw (by rwa [List.length_replicate])

theorem validFrame_frameBytes : validFrame cfg (frameBytes cfg c l fill) = true := by
  have hten := cfg.ten_le_frameLen
  refine validFrame_iff.mpr ⟨length_frameBytes cfg c l fill, ?_, ?_⟩
  · exact byteAt_frameBytes hnodup (w := (0, cfg.hdr1)) (by simp [frameWrites]) (by omega)
  · exact byteAt_frameBytes hnodup (w := (1, cfg.hdr2)) (by simp [frameWrites]) (by omega)

theorem digitByte_frameBytes (i : Fin 4) : digitByte cfg (frameBytes cfg c l fill) i = digItemByte cfg (c.get i) :=
  byteAt_frameBytes hnodup (digit_mem_frameWrites cfg c l i) (cfg.digitOff_lt i)

theorem labelByte_frameBytes (g : Fin 5) : labelByte cfg (frameBytes cfg c l fill) g = l.get g :=
  byteAt_frameBytes hnodup (label_mem_frameWrites cfg c l g) (cfg.labelOff_lt g)

end

theorem of_expandFrame_eq_some {cfg : Config} {c : Vector DigitItem 4} {l : Vector Byte 5} {fill : Byte} {F : Frame}
    (h : expandFrame cfg c l fill = some F) :
    F = frameBytes cfg c l fill ∧ (frameOffsets cfg).Nodup ∧ cfg.hdr1 ∉ F.tail := by
  rw [expandFrame] at h
  split at h
  next hok =>
    cases h
    exact ⟨rfl, hok⟩
  next => cases h

theorem acceptedBytes_map_byteEdge (now : Nat) (bs : List Byte) : acceptedBytes (bs.map (byteEdge now)) = bs := by
  induction bs with
  | nil => rfl
  | cons b bs ih =>
    rw [List.map_cons, acceptedBytes_cons, acceptedBytes_of_byte rfl rfl, ih]
    rfl

end Machine

/-- Settles O54: what R63 writes is a clean frame, so it is delivered, and every offset reads back the byte written. -/
theorem writtenFrameReadsBack : Obligations.WrittenFrameReadsBack := by
  intro s c l fill F now rest hexpand hin
  obtain ⟨hF, hnodup, hmagic⟩ := of_expandFrame_eq_some hexpand
  have hvalid : validFrame s.cfg F = true := hF ▸ validFrame_frameBytes hnodup
  have hlen : F.length = s.cfg.frameLen := (validFrame_iff.mp hvalid).1
  have hten := s.cfg.ten_le_frameLen
  obtain ⟨G, b, rfl⟩ : ∃ G b, F = G ++ [b] :=
    ⟨_, _, (List.dropLast_append_getLast (List.ne_nil_of_length_pos (by omega))).symm⟩
  have hedges : G.map (byteEdge now) ++ [byteEdge now b] = (G ++ [b]).map (byteEdge now) := by simp
  obtain ⟨t, hrun, hcand, hpresents, hout, -, -⟩ := cleanFrameIsAlwaysDelivered s (G.map (byteEdge now)) rest
    (byteEdge now b) (G ++ [b]) (hedges ▸ hin) (by simp [byteEdge]) rfl rfl
    (hedges ▸ acceptedBytes_map_byteEdge now (G ++ [b])) hvalid hmagic
  have hedgeCount : (G.map (byteEdge now)).length + 1 = s.cfg.frameLen := by simpa using hlen
  rw [hedgeCount] at hrun
  refine ⟨t, hrun, hpresents, hcand, fun i => ?digit, fun g => ?label, hout ▸ readingOf_ts s.cfg _ now⟩
  case digit =>
    rw [hout, readingOf_digCode_get, readingOf_digDp_get, hF, digitByte_frameBytes hnodup, digItemByte,
      codeOf_digitByteOf, dpOf_digitByteOf]
    exact ⟨rfl, rfl⟩
  case label => rw [hout, readingOf_lbl_get, hF, labelByte_frameBytes hnodup]

end Sys2Proof
end
